-- ==== Sys2Proof/Word.lean ====
section
/-! DEFINITION. The widths of the unit's values (00_scope.md section 6): `u8` and the 64-bit words of LAST, REM and `now`. -/

namespace Sys2Proof

/-- `u8`: an unsigned 8-bit value (00_scope.md section 6). -/
abbrev Byte := BitVec 8

/-- A 64-bit word: `u64` read as it stands (`toNat`), or the two's complement image of an `s64` (`toInt`)
(00_scope.md section 6). -/
abbrev Word64 := BitVec 64

end Sys2Proof
end

