-- ==== Sys2Proof/Config.lean ====
section
/-! DEFINITION. What is fixed for the machine: the parameters of 00_scope.md section 4, the open parameters (constants with no body) and the free values of an invalid unit. -/

namespace Sys2Proof

/-- The byte order of an 8-byte field, least or most significant byte first (20_memory.md R35: `SNAP_ENDIAN` is little or big). -/
inductive Endian where
  | little
  | big
deriving DecidableEq, Repr

/-- What `IRQ_LINE` names: the line's number, its priority among the console's sources and its vector (60_exceptions.md R109). -/
structure IrqLine where
  number : Nat
  priority : Nat
  vector : Nat
deriving DecidableEq, Repr, Inhabited

namespace Config

/-- `T_XFER`, the transfer duration: 976 cycles (00_scope.md R4). DESIGN CHOICE of the spec to take the source's literal as given (D21, log 17). -/
def tXfer : Nat := 976

/-- `TR_CONST`: the value TR holds at reset and in every reachable state (00_scope.md section 4; 10_state.md R24). -/
def trConst : Byte := 0xFF#8

/-- `CTL_RESET`: bit 7 is 0 by the source; bits 6:0 are 0 by the spec's decision D10. DESIGN CHOICE (log 5). -/
def ctlReset : Byte := 0x00#8

/-- `SNAP_SIZE`: the bytes of a snapshot record (00_scope.md section 4; 30_encoding.md R49). -/
def snapSize : Nat := 18

/-- `SNAP_ENDIAN` (20_memory.md R35). DESIGN CHOICE of the spec: little-endian (D11, log 6). -/
def snapEndian : Endian := .little

/-! The open parameters: no default, and no rule's result depends on them (92_eei_decisions.md, table of parameters). -/

/-- `TR_ADDR`: the system-bus address of TR, open (20_memory.md R32, D4, log 8). -/
opaque trAddr : Nat

/-- `CTL_ADDR`: the system-bus address of CTL, open (20_memory.md R32, D4, log 8). -/
opaque ctlAddr : Nat

/-- `IRQ_LINE`: the line the driver forwards the interrupt to, open (60_exceptions.md R109, D17, log 9). -/
opaque irqLine : IrqLine

/-- `CYCLE_UNIT`: the duration of one cycle, a number of some unit of time, open (00_scope.md R6, D18, log 9). -/
opaque cycleUnit : Nat

/-- `FMTVER_WIDTH`: the width of `formatVersion` in bits, open (30_encoding.md R48, D12, log 24). -/
opaque fmtverWidth : Nat

/-! The free values: what TR, CTL, REM and LAST hold in a unit that a malformed snapshot has left invalid, one for each
draw (42_snapshot.md R90: "after the fault all four fields hold unspecified values"; D14, U5, log 4). They have no body:
a proof can use no value of theirs. -/

/-- TR of an invalid unit at a draw (42_snapshot.md R90, log 4). -/
opaque freeTr : Nat → Byte

/-- CTL of an invalid unit at a draw (42_snapshot.md R90, log 4). -/
opaque freeCtl : Nat → Byte

/-- REM of an invalid unit at a draw (42_snapshot.md R90, log 4). -/
opaque freeRem : Nat → Word64

/-- LAST of an invalid unit at a draw (42_snapshot.md R90, log 4). -/
opaque freeLast : Nat → Word64

end Config

end Sys2Proof
end

