-- ==== Sys2Proof/Machine/State.lean ====
section
/-! DEFINITION. The unit's state (10_state.md R10, R24, R27), the outcomes of an operation (00_scope.md section 6, 60_exceptions.md R100 to R104), and the state after reset. -/

namespace Sys2Proof.Machine

/-- The unit's faults: exactly one (60_exceptions.md R100). It does not end a run: the spec says what the machine does
after it (R102), so LOAD takes it as a next state and records it in `State.result` (log 4). No meaning answers `Host.Outcome.fault`. -/
inductive Fault where
  /-- Raised by a LOAD whose stream holds fewer than 18 bytes (42_snapshot.md R90). Safe: the unit's fields are free values afterwards. -/
  | malformedSnapshot
deriving DecidableEq, Repr

/-- Why a run is refused (60_exceptions.md R104): "a refusal is the spec's outcome for something it gives no meaning". -/
inductive Refusal where
  /-- Raised by exec for an operation that has no meaning in this model yet. Safe. None is left. -/
  | notModelled (mnemonic : String)
  /-- Raised by step for an operation code outside the eight (60_exceptions.md R104 a, 30_encoding.md R50). Safe. -/
  | reservedOperation
  /-- Raised by TICK, RD.TR, RD.CTL, WR.TR, WR.CTL and SAVE while `valid` is false (60_exceptions.md R104 b). Safe. -/
  | invalidUnit
  /-- Raised by step where the trace ends inside a record (60_exceptions.md R104 c, 30_encoding.md R54). Safe. -/
  | truncatedRecord
  /-- Raised by step where the trace is empty: no operation is presented, and the unit has no other step
  (00_scope.md R2). DESIGN CHOICE (log 3). Safe. -/
  | noOperation
deriving DecidableEq, Repr

/-- What an operation hands to the environment: `ok(result)`, where the result is empty, a byte, a bit, 18 bytes or the rest of
a stream, or the fault (00_scope.md section 6, "Outcome of an operation"; 30_encoding.md R46, column Result). -/
inductive OpResult where
  /-- `ok` with no result: RESET, WR.TR, WR.CTL. -/
  | done
  /-- `ok` with a byte: RD.TR, RD.CTL. -/
  | byte (b : Byte)
  /-- `ok` with the interrupt bit of a TICK (60_exceptions.md R106). -/
  | irq (b : Bool)
  /-- `ok` with the snapshot record of a SAVE. -/
  | record (bytes : List Byte)
  /-- `ok` with the stream a LOAD leaves unread. -/
  | rest (bytes : List Byte)
  /-- The fault of a LOAD. -/
  | fault (f : Fault)
deriving DecidableEq, Repr

/-- The contents of a snapshot record, in the record's order (30_encoding.md R49). -/
structure Snapshot where
  tr : Byte
  ctl : Byte
  last : Word64
  rem : Word64
deriving DecidableEq, Repr

/-- The unit (10_state.md R10, R27), and what the environment holds of it in this model. -/
structure State where
  /-- TR, `transferRegister` (10_state.md R11). -/
  tr : Byte
  /-- CTL, `controlRegister`: bit 7 ACT, bits 6:1 RSV, bit 0 CLK (10_state.md R12). -/
  ctl : Byte
  /-- REM, `cyclesRemaining`, the two's complement image of a signed value (10_state.md R16). -/
  rem : Word64
  /-- LAST, `lastObservedCycle`, unsigned (10_state.md R17). -/
  last : Word64
  /-- The spec's own validity mark (10_state.md R27). -/
  valid : Bool
  /-- The model's own: the outcome of the operation last performed. It is an output; no operation reads it
  (60_exceptions.md R106, R107; DESIGN CHOICE, log 2). -/
  result : OpResult
  /-- The model's own: the trace records the environment has still to present (30_encoding.md R47; DESIGN CHOICE, log 1). -/
  trace : List Byte
  /-- The model's own: how many times free values have been drawn (42_snapshot.md R90; DESIGN CHOICE, log 4). -/
  draws : Nat
deriving DecidableEq, Repr

/-- The state after power-on (10_state.md R24). The bits 6:0 of CTL are the spec's choice D10 (DESIGN CHOICE, log 5);
`result`, `trace` and `draws` are the model's own (DESIGN CHOICE, logs 1, 2, 4). -/
def State.reset : State where
  tr := Config.trConst
  ctl := Config.ctlReset
  rem := 0#64
  last := 0#64
  valid := true
  result := .done
  trace := []
  draws := 0

end Sys2Proof.Machine
end

