-- ==== Sys2Proof/Machine/Flags.lean ====
section
/-! DEFINITION. The fields of CTL (10_state.md R12 to R15), the state machine they hold (R19) and the interrupt pulse (60_exceptions.md R106). -/

namespace Sys2Proof.Machine

/-- ACT: bit 7 of CTL, the transfer-active flag (10_state.md R13). -/
def act (ctl : Byte) : Bool := ctl.getLsbD 7

/-- RSV: bits 6:1 of CTL (10_state.md R15). -/
def rsv (ctl : Byte) : BitVec 6 := ctl.extractLsb' 1 6

/-- CLK: bit 0 of CTL, the clock-source select (10_state.md R14). -/
def clk (ctl : Byte) : Bool := ctl.getLsbD 0

/-- Bits 6:0 of CTL, which completion preserves (40_tick.md R66). -/
def lowBits (ctl : Byte) : BitVec 7 := ctl.extractLsb' 0 7

/-- Completion's write of CTL: bit 7 to 0, bits 6:0 preserved (40_tick.md R60: `CTL & 0x7F`). -/
def clearAct (ctl : Byte) : Byte := ctl &&& 0x7F#8

/-- The two states of the state machine (10_state.md R19). -/
inductive Phase where
  | idle
  | transferring
deriving DecidableEq, Repr

/-- Idle when ACT is 0, Transferring when ACT is 1; it is not stored separately (10_state.md R19). -/
def phaseOf (ctl : Byte) : Phase := if act ctl then .transferring else .idle

/-- The phase of the unit (10_state.md R19). -/
def State.phase (s : State) : Phase := phaseOf s.ctl

/-- The IRQ port: true for the one operation that raised the interrupt, and not held (60_exceptions.md R106). -/
def State.irqPulse (s : State) : Bool := decide (s.result = .irq true)

end Sys2Proof.Machine
end

