-- ==== Sys2Proof/Machine/Bytes.lean ====
section
/-! DEFINITION. Byte strings and byte order (00_scope.md section 6; 20_memory.md R35): the notation `le_bytes_N`, `from_le_N` and `StreamRead`. -/

namespace Sys2Proof.Machine

/-- `le_bytes_N(v)`: the N bytes of v, least significant byte first (00_scope.md section 6). -/
def leBytes : Nat → Nat → List Byte
  | 0, _ => []
  | n + 1, v => BitVec.ofNat 8 v :: leBytes n (v / 256)

/-- `from_le_N(bs)`: the unsigned value of the bytes, least significant byte first (00_scope.md section 6). -/
def fromLe : List Byte → Nat
  | [] => 0
  | b :: bs => b.toNat + 256 * fromLe bs

/-- The 8 bytes of a 64-bit word in a byte order (20_memory.md R35). -/
def toBytes8 (e : Endian) (v : Word64) : List Byte :=
  match e with
  | .little => leBytes 8 v.toNat
  | .big => (leBytes 8 v.toNat).reverse

/-- The 64-bit word that bytes denote in a byte order (20_memory.md R35). -/
def fromBytes8 (e : Endian) (bs : List Byte) : Word64 :=
  match e with
  | .little => BitVec.ofNat 64 (fromLe bs)
  | .big => BitVec.ofNat 64 (fromLe bs.reverse)

/-- `StreamRead(s, n)`: the first n bytes of s and the rest of it; none where s has fewer than n bytes
(00_scope.md section 6; 42_snapshot.md R90). -/
def streamRead : List Byte → Nat → Option (List Byte × List Byte)
  | s, 0 => some ([], s)
  | [], _ + 1 => none
  | b :: s, n + 1 =>
    match streamRead s n with
    | some (taken, rest) => some (b :: taken, rest)
    | none => none

end Sys2Proof.Machine
end

