-- ==== Sys2Proof/Machine/Operands.lean ====
section
/-! DEFINITION. The operand forms: the exact integers of the countdown (40_tick.md R60 to R65) and the contents of a snapshot record (30_encoding.md R49). -/

namespace Sys2Proof.Machine

/-- `int(v)` of a signed 64-bit field (00_scope.md section 6). -/
def sint (v : Word64) : Int := v.toInt

/-- `int(v)` of an unsigned 64-bit value (00_scope.md section 6). -/
def uint (v : Word64) : Int := (v.toNat : Int)

/-- `tc64(i)`: the two's complement image of an integer of the signed 64-bit range (00_scope.md section 6). -/
def tc64 (i : Int) : Word64 := BitVec.ofInt 64 i

/-- `s64_of(u)`: the signed value of a 64-bit image (00_scope.md section 6). -/
def s64Of (u : Word64) : Int := if u.toNat < 2 ^ 63 then (u.toNat : Int) else (u.toNat : Int) - 2 ^ 64

/-- A stale notification: `now <= LAST`, an unsigned comparison (40_tick.md R61). DESIGN CHOICE of the spec for `now < LAST` (D5, log 10). -/
def isStale (now last : Word64) : Bool := decide (now.toNat ≤ last.toNat)

/-- `elapsed = int(now) - int(LAST)`, exact (40_tick.md R62). -/
def elapsed (now last : Word64) : Int := uint now - uint last

/-- `r = int(REM) - elapsed`, exact, never modular (40_tick.md R65; DESIGN CHOICE of the spec, D6, log 11). -/
def countdown (rem now last : Word64) : Int := sint rem - elapsed now last

/-- The snapshot record of the four fields: TR, CTL, LAST, REM in this order, no padding (30_encoding.md R49, 42_snapshot.md R85). -/
def snapshotBytes (e : Endian) (x : Snapshot) : List Byte :=
  [x.tr] ++ [x.ctl] ++ toBytes8 e x.last ++ toBytes8 e (tc64 (sint x.rem))

/-- The four reads of a LOAD, in order (42_snapshot.md R88): the record's contents and the rest of the stream; none where
a read finds too few bytes (R90). -/
def parseSnapshot (e : Endian) (s : List Byte) : Option (Snapshot × List Byte) :=
  match streamRead s 1 with
  | none => none
  | some (a, s1) =>
    match streamRead s1 1 with
    | none => none
    | some (b, s2) =>
      match streamRead s2 8 with
      | none => none
      | some (l, s3) =>
        match streamRead s3 8 with
        | none => none
        | some (r, s4) =>
          some
            ({ tr := a.headD 0#8, ctl := b.headD 0#8, last := fromBytes8 e l, rem := tc64 (s64Of (fromBytes8 e r)) }, s4)

end Sys2Proof.Machine
end

