-- ==== Sys2Proof/Syntax.lean ====
section
/-! DEFINITION. The eight operations of the unit (30_encoding.md R46), one constructor of `Instr` for each row of the operation table, with their formats, ports and mnemonics. -/

namespace Sys2Proof

/-- The register select `sel` of the REG port: 0 names TR, 1 names CTL (20_memory.md R32; DESIGN CHOICE of the spec, D4, log 8). -/
inductive Sel where
  | tr
  | ctl
deriving DecidableEq, Repr

/-- The operations by name alone, as an operation code gives them (30_encoding.md R46). -/
inductive Opcode where
  | reset
  | tick
  | rdTr
  | rdCtl
  | wrTr
  | wrCtl
  | save
  | load
deriving DecidableEq, Repr

/-- The formats of a trace record (30_encoding.md R47). -/
inductive Format where
  | n
  | t
  | w
  | l
deriving DecidableEq, Repr

/-- The ports that operations are presented on, and the output IRQ, which no operation is presented on
(20_memory.md section 1). -/
inductive Port where
  | rst
  | cyc
  | reg
  | snap
  | irq
deriving DecidableEq, Repr

/-- The roles of the environment (60_exceptions.md R115). -/
inductive Role where
  | driver
  | guest
  | host
deriving DecidableEq, Repr

/-- An operation with its operands (30_encoding.md R46, R48). -/
inductive Instr where
  /-- RESET: the power-on state (70_reset_and_hazards.md R120). -/
  | reset
  /-- TICK: the unit is told the absolute cycle count `now` (40_tick.md R60). -/
  | tick (now : Word64)
  /-- RD.TR (41_register_access.md R75). -/
  | rdTr
  /-- RD.CTL (41_register_access.md R76). -/
  | rdCtl
  /-- WR.TR (41_register_access.md R77). -/
  | wrTr (data : Byte)
  /-- WR.CTL (41_register_access.md R78). -/
  | wrCtl (data : Byte)
  /-- SAVE (42_snapshot.md R85). -/
  | save
  /-- LOAD of the head of a byte stream; `ver` is `formatVersion`, a natural number since its width is open
  (42_snapshot.md R88, 30_encoding.md R48, log 24). -/
  | load (ver : Nat) (stream : List Byte)
deriving DecidableEq, Repr

/-- The name of an operation without its operands. -/
def Instr.opcode : Instr → Opcode
  | .reset => .reset
  | .tick _ => .tick
  | .rdTr => .rdTr
  | .rdCtl => .rdCtl
  | .wrTr _ => .wrTr
  | .wrCtl _ => .wrCtl
  | .save => .save
  | .load _ _ => .load

/-- The format column of the operation table (30_encoding.md R46). -/
def Opcode.format : Opcode → Format
  | .reset => .n
  | .tick => .t
  | .rdTr => .n
  | .rdCtl => .n
  | .wrTr => .w
  | .wrCtl => .w
  | .save => .n
  | .load => .l

/-- The port column of the operation table (30_encoding.md R46). -/
def Opcode.port : Opcode → Port
  | .reset => .rst
  | .tick => .cyc
  | .rdTr => .reg
  | .rdCtl => .reg
  | .wrTr => .reg
  | .wrCtl => .reg
  | .save => .snap
  | .load => .snap

/-- The port an operation is presented on. -/
def Instr.port (i : Instr) : Port := i.opcode.port

/-- The role that uses a port; IRQ is an output whose result the driver carries (60_exceptions.md R115). -/
def Port.role : Port → Role
  | .rst => .host
  | .cyc => .driver
  | .reg => .guest
  | .snap => .host
  | .irq => .driver

/-- The mnemonic column of the operation table, one spelling for each operation (30_encoding.md R52). -/
def Opcode.mnemonic : Opcode → String
  | .reset => "RESET"
  | .tick => "TICK"
  | .rdTr => "RD.TR"
  | .rdCtl => "RD.CTL"
  | .wrTr => "WR.TR"
  | .wrCtl => "WR.CTL"
  | .save => "SAVE"
  | .load => "LOAD"

end Sys2Proof
end

