-- ==== Sys2Proof/Machine/Ops.lean ====
section
/-! DEFINITION. The operations that the meanings share: the validity check, the register port, the completion interrupt and the fault, the snapshot of the state. -/

namespace Sys2Proof.Machine

/-- The outcome type of the unit's operations. -/
abbrev Out := Host.Outcome State Fault Refusal

/-- Every operation but RESET and LOAD is refused on an invalid unit (60_exceptions.md R102, R104 b; DESIGN CHOICE of the
spec, D14, D20, log 15). -/
def requireValid (s : State) (k : State → Out) : Out :=
  if s.valid then k s else .refused .invalidUnit

/-- The operation ends `ok` and hands its result to the environment. -/
def State.ok (s : State) (r : OpResult) : State := { s with result := r }

/-- `RegRead(sel)`: the stored byte, no side effect (20_memory.md R33; 41_register_access.md R75, R76; DESIGN CHOICE of the spec, D9, log 14). -/
def regRead (sel : Sel) (s : State) : Byte :=
  match sel with
  | .tr => s.tr
  | .ctl => s.ctl

/-- `RegWrite(sel, v)`: a write to TR is discarded, a write to CTL replaces all eight bits and loads no countdown
(41_register_access.md R77, R78, R79; DESIGN CHOICES of the spec, D7, D8, logs 12, 13). -/
def regWrite (sel : Sel) (v : Byte) (s : State) : State :=
  match sel with
  | .tr => s
  | .ctl => { s with ctl := v }

/-- The power-on values of the four fields and the validity mark (10_state.md R24, 70_reset_and_hazards.md R120). What is
the environment's (`trace`) and the model's own (`draws`) is not the unit's to reset (log 16). -/
def powerOn (s : State) : State :=
  { s with tr := Config.trConst, ctl := Config.ctlReset, rem := 0#64, last := 0#64, valid := true }

/-- Raising the transfer-complete interrupt, the unit's side of it whole (60_exceptions.md R111, 40_tick.md R66): LAST takes
`now`, ACT is cleared with bits 6:0 of CTL preserved, REM is reloaded with T_XFER, and the TICK returns `irq` = 1. The unit saves
nothing, masks nothing and transfers control nowhere; it has no return from interrupt and needs none (R113). -/
def raiseInterrupt (now : Word64) (s : State) : State :=
  { s with last := now, ctl := clearAct s.ctl, rem := BitVec.ofNat 64 Config.tXfer, result := .irq true }

/-- Taking the fault (42_snapshot.md R90, 60_exceptions.md R102, R112): the unit becomes invalid and its four fields hold
unspecified values, here free values that nothing constrains (DESIGN CHOICE of the spec, D14, log 4). There is no return: RESET or a
full LOAD makes the unit valid again. -/
def raiseFault (f : Fault) (s : State) : State :=
  { s with
    tr := Config.freeTr s.draws
    ctl := Config.freeCtl s.draws
    rem := Config.freeRem s.draws
    last := Config.freeLast s.draws
    valid := false
    result := .fault f
    draws := s.draws + 1 }

/-- The four fields of the unit, as a snapshot holds them (42_snapshot.md R86). -/
def State.snapshot (s : State) : Snapshot := { tr := s.tr, ctl := s.ctl, last := s.last, rem := s.rem }

/-- Overwriting all four fields with the contents of a record; the unit is valid (42_snapshot.md R88). -/
def State.restore (s : State) (x : Snapshot) : State :=
  { s with tr := x.tr, ctl := x.ctl, last := x.last, rem := x.rem, valid := true }

/-- The spec's numbers of the outcomes (60_exceptions.md R103; DESIGN CHOICE of the spec, D15, log 22); none for the two
outcomes that are this model's own and not the spec's. -/
def outcomeCode (o : Out) : Option Nat :=
  match o with
  | .next s =>
    match s.result with
    | .fault .malformedSnapshot => some 1
    | _ => some 0
  | .fault .malformedSnapshot => some 1
  | .refused .reservedOperation => some 2
  | .refused .invalidUnit => some 3
  | .refused .truncatedRecord => some 4
  | .refused _ => none

end Sys2Proof.Machine
end

