-- ==== Sys2Proof/Machine/CyclePort.lean ====
section
/-! DEFINITION. The operation of the CYC port: TICK, the countdown and the transfer-complete interrupt (40_tick.md). -/

namespace Sys2Proof.Machine

/-- The countdown path of an effective TICK with ACT = 1: completion where `r <= 0` (40_tick.md R66), else REM takes `r` (R67). -/
def tickTransferring (now : Word64) (s : State) : State :=
  let r := countdown s.rem now s.last
  if r ≤ 0 then raiseInterrupt now s
  else { s with last := now, rem := tc64 r, result := .irq false }

/-- TICK on a valid unit, its checks in the order of 40_tick.md R60 (60_exceptions.md R110): the stale test, the test of ACT,
the countdown test. -/
def tickState (now : Word64) (s : State) : State :=
  if isStale now s.last then s.ok (.irq false)
  else if act s.ctl then tickTransferring now s
  else { s with last := now, result := .irq false }

/-- TICK (40_tick.md R60). -/
def execTick (now : Word64) (s : State) : Out :=
  requireValid s fun s => .next (tickState now s)

end Sys2Proof.Machine
end

