-- ==== Sys2Proof/Machine/RegisterPort.lean ====
section
/-! DEFINITION. The operations of the REG port: RD.TR, RD.CTL, WR.TR, WR.CTL (41_register_access.md). -/

namespace Sys2Proof.Machine

/-- A read of the register port: the byte is the result, nothing else changes (20_memory.md R33). -/
def execRd (sel : Sel) (s : State) : Out :=
  requireValid s fun s => .next (s.ok (.byte (regRead sel s)))

/-- A write of the register port (20_memory.md R34). -/
def execWr (sel : Sel) (data : Byte) (s : State) : Out :=
  requireValid s fun s => .next ((regWrite sel data s).ok .done)

/-- RD.TR (41_register_access.md R75). -/
def execRdTr (s : State) : Out := execRd .tr s

/-- RD.CTL (41_register_access.md R76). -/
def execRdCtl (s : State) : Out := execRd .ctl s

/-- WR.TR (41_register_access.md R77). -/
def execWrTr (data : Byte) (s : State) : Out := execWr .tr data s

/-- WR.CTL (41_register_access.md R78). -/
def execWrCtl (data : Byte) (s : State) : Out := execWr .ctl data s

end Sys2Proof.Machine
end

