-- ==== Sys2Proof/Machine/ResetPort.lean ====
section
/-! DEFINITION. The operation of the RST port: RESET. -/

namespace Sys2Proof.Machine

/-- RESET puts the unit in its power-on state; it is accepted in every state, the invalid one too
(70_reset_and_hazards.md R120; DESIGN CHOICE of the spec, D19, log 16). -/
def execReset (s : State) : Out := .next ((powerOn s).ok .done)

end Sys2Proof.Machine
end

