-- ==== Sys2Proof/Machine/SnapshotPort.lean ====
section
/-! DEFINITION. The operations of the SNAP port: SAVE and LOAD (42_snapshot.md). -/

namespace Sys2Proof.Machine

/-- SAVE emits the 18-byte record of the current state and changes nothing (42_snapshot.md R85). -/
def execSave (s : State) : Out :=
  requireValid s fun s => .next (s.ok (.record (snapshotBytes Config.snapEndian s.snapshot)))

/-- LOAD overwrites all four fields from the 18 bytes at the head of the stream and hands back the rest (42_snapshot.md R88, R94);
a shorter stream raises MalformedSnapshot (R90). `ver` is not read (R89). It is accepted on an invalid unit (60_exceptions.md R102),
and it validates nothing (R91). -/
def execLoad (_ver : Nat) (stream : List Byte) (s : State) : Out :=
  match parseSnapshot Config.snapEndian stream with
  | some (x, rest) => .next ((s.restore x).ok (.rest rest))
  | none => .next (raiseFault .malformedSnapshot s)

end Sys2Proof.Machine
end

