-- ==== Sys2Proof/Machine/Dispatch.lean ====
section
/-! DEFINITION. One arm for each operation (30_encoding.md R46, R54: the eight operations are dispatched to their rules). -/

namespace Sys2Proof.Machine

def exec (i : Instr) (s : State) : Host.Outcome State Fault Refusal :=
  match i with
  | .reset => Sys2Proof.Machine.execReset s
  | .tick now => Sys2Proof.Machine.execTick now s
  | .rdTr => Sys2Proof.Machine.execRdTr s
  | .rdCtl => Sys2Proof.Machine.execRdCtl s
  | .wrTr data => Sys2Proof.Machine.execWrTr data s
  | .wrCtl data => Sys2Proof.Machine.execWrCtl data s
  | .save => Sys2Proof.Machine.execSave s
  | .load ver stream => Sys2Proof.Machine.execLoad ver stream s

end Sys2Proof.Machine
end

