-- ==== Sys2Proof/WellFormed.lean ====
section
/-! DEFINITION. Which operations a trace record can carry (30_encoding.md R47, R48). -/

namespace Sys2Proof

/-- `ver` fits the 8 bits a trace record carries of `formatVersion` (30_encoding.md R47, R48; log 24). -/
def verFits (ver : Nat) : Bool := decide (ver < 256)

/-- The stream's length fits the count byte of a format L record: 0 to 255 (30_encoding.md R47, R48). -/
def streamFits (stream : List Byte) : Bool := decide (stream.length ≤ 255)

/-- Only a LOAD has an operand whose type is wider than its field in the trace record; every other operand is legal
as it stands (30_encoding.md R51). -/
def Instr.wellFormed : Instr → Bool
  | .reset => true
  | .tick _ => true
  | .rdTr => true
  | .rdCtl => true
  | .wrTr _ => true
  | .wrCtl _ => true
  | .save => true
  | .load ver stream => verFits ver && streamFits stream

/-- The same, as a proposition. -/
abbrev Instr.WF (i : Instr) : Prop := i.wellFormed = true

end Sys2Proof
end

