-- ==== Sys2Proof/Decode.lean ====
section
/-! DEFINITION. The codec of trace records (30_encoding.md R46, R47, R50, R54): a decoder that is total on any bytes and refuses by name, then the encoder. The codes are the spec's own (DESIGN CHOICE of the spec, D2, log 7). -/

namespace Sys2Proof

/-- Bits 7:4 of an operation code, which are 0 in every one of the eight (30_encoding.md R46). -/
def opcZero (opc : Byte) : Nat := (opc.extractLsb' 4 4).toNat

/-- `grp`: bits 3:1 of an operation code (30_encoding.md R46). -/
def opcGrp (opc : Byte) : Nat := (opc.extractLsb' 1 3).toNat

/-- `sel`: bit 0 of an operation code (30_encoding.md R46). -/
def opcSel (opc : Byte) : Bool := opc.getLsbD 0

/-- Which operation a code names: by its group, and for the REG groups 2 (RD) and 3 (WR) by the select; the select
must be 0 in every other group; groups 6 and 7 and codes with a bit of 7:4 set are reserved (30_encoding.md R46, R50). -/
def decodeOpcode (opc : Byte) : Option Opcode :=
  if opcZero opc ≠ 0 then none
  else
    match opcGrp opc, opcSel opc with
    | 0, false => some .reset
    | 1, false => some .tick
    | 2, false => some .rdTr
    | 2, true => some .rdCtl
    | 3, false => some .wrTr
    | 3, true => some .wrCtl
    | 4, false => some .save
    | 5, false => some .load
    | _, _ => none

/-- What the decoder reads from the head of a byte sequence (30_encoding.md R54). -/
inductive Decoded where
  /-- A record, and the bytes after it. -/
  | record (i : Instr) (rest : List Byte)
  /-- The first byte is a reserved operation code (R50). -/
  | reserved (opc : Byte)
  /-- The sequence ends inside the record of this operation (R54). -/
  | truncated (op : Opcode)
  /-- The sequence holds no record: it is empty (log 3). -/
  | ended
deriving DecidableEq, Repr

/-- The operands of an operation, read from the bytes after its code (30_encoding.md R47). Operands are little-endian,
whatever `SNAP_ENDIAN` is. -/
def decodeOperands (op : Opcode) (bs : List Byte) : Decoded :=
  match op with
  | .reset => .record .reset bs
  | .tick =>
    match Machine.streamRead bs 8 with
    | some (now, rest) => .record (.tick (Machine.fromBytes8 .little now)) rest
    | none => .truncated .tick
  | .rdTr => .record .rdTr bs
  | .rdCtl => .record .rdCtl bs
  | .wrTr =>
    match bs with
    | data :: rest => .record (.wrTr data) rest
    | [] => .truncated .wrTr
  | .wrCtl =>
    match bs with
    | data :: rest => .record (.wrCtl data) rest
    | [] => .truncated .wrCtl
  | .save => .record .save bs
  | .load =>
    match bs with
    | ver :: n :: more =>
      match Machine.streamRead more n.toNat with
      | some (stream, rest) => .record (.load ver.toNat stream) rest
      | none => .truncated .load
    | _ => .truncated .load

/-- The record at the head of a byte sequence (30_encoding.md R54). -/
def decode (bytes : List Byte) : Decoded :=
  match bytes with
  | [] => .ended
  | opc :: rest =>
    match decodeOpcode opc with
    | some op => decodeOperands op rest
    | none => .reserved opc

/-- The operation code of an operation, the column `opc` of the table (30_encoding.md R46). -/
def Opcode.code : Opcode → Byte
  | .reset => 0x00#8
  | .tick => 0x02#8
  | .rdTr => 0x04#8
  | .rdCtl => 0x05#8
  | .wrTr => 0x06#8
  | .wrCtl => 0x07#8
  | .save => 0x08#8
  | .load => 0x0A#8

/-- The operand bytes of an operation (30_encoding.md R47). -/
def encodeOperands : Instr → List Byte
  | .reset => []
  | .tick now => Machine.toBytes8 .little now
  | .rdTr => []
  | .rdCtl => []
  | .wrTr data => [data]
  | .wrCtl data => [data]
  | .save => []
  | .load ver stream => BitVec.ofNat 8 ver :: BitVec.ofNat 8 stream.length :: stream

/-- The trace record of an operation: its code, then its operand bytes (30_encoding.md R47). -/
def encode (i : Instr) : List Byte := i.opcode.code :: encodeOperands i

/-- A trace is the concatenation of its records (30_encoding.md R47). -/
def encodeTrace : List Instr → List Byte
  | [] => []
  | i :: is => encode i ++ encodeTrace is

/-- The length in bytes of an operation's trace record, by its format (30_encoding.md R47). -/
def Instr.recordLength (i : Instr) : Nat :=
  match i.opcode.format, i with
  | .n, _ => 1
  | .t, _ => 9
  | .w, _ => 2
  | .l, .load _ stream => 3 + stream.length
  | .l, _ => 3

/-- The longest trace record: a LOAD that carries 255 stream bytes (30_encoding.md R47). -/
def longestRecord : Nat := 258

/-- The bytes of an instruction that the opcode table's numbering gives as the number `w` of `nbits` bits: byte k of the
record is bits 8k+7:8k, and every bit above `nbits` is 0 up to the longest record. -/
def tableBytes (nbits w : Nat) : List Byte :=
  Machine.leBytes (nbits / 8) w ++ List.replicate longestRecord 0x00#8

/-- The instruction the decoder reads from a table word; none where it refuses. -/
def decodeTableWord (nbits w : Nat) : Option Instr :=
  match decode (tableBytes nbits w) with
  | .record i _ => some i
  | .reserved _ => none
  | .truncated _ => none
  | .ended => none

/-- The bytes of the one record at the head of a table word, without the zeros that follow it; all of the bytes where
the decoder refuses. -/
def tableRecord (nbits w : Nat) : List Byte :=
  match decode (tableBytes nbits w) with
  | .record i _ => (tableBytes nbits w).take i.recordLength
  | .reserved _ => tableBytes nbits w
  | .truncated _ => tableBytes nbits w
  | .ended => tableBytes nbits w

end Sys2Proof
end

