-- ==== Sys2Proof/Machine/Fetch.lean ====
section
/-! DEFINITION. How the environment's next operation reaches the unit: the record at the head of the trace (30_encoding.md R47, R54). -/

namespace Sys2Proof.Machine

/-- What the codec reads at the head of the trace. -/
def fetch (s : State) : Decoded := decode s.trace

/-- The record presented is taken off the trace; what follows it is still to be presented. -/
def State.advance (s : State) (rest : List Byte) : State := { s with trace := rest }

/-- The records of `bytes` are to be presented before what the trace holds (log 23). -/
def State.present (s : State) (bytes : List Byte) : State := { s with trace := bytes ++ s.trace }

end Sys2Proof.Machine
end

