-- ==== Sys2Proof/Machine/Step.lean ====
section
/-! DEFINITION. One step: the operation at the head of the trace is performed (00_scope.md R2; 30_encoding.md R54; 60_exceptions.md R104). -/

namespace Sys2Proof.Machine

/-- The unit performs the operation the environment presents next, and takes no other step (00_scope.md R2). A reserved code and a
record that ends early are refused by the codec and never reach the unit (30_encoding.md R54); where no operation is presented there is
no step (log 3). -/
def step (s : State) : Host.Outcome State Fault Refusal :=
  match fetch s with
  | .record i rest => exec i (s.advance rest)
  | .reserved _ => .refused .reservedOperation
  | .truncated _ => .refused .truncatedRecord
  | .ended => .refused .noOperation

/-- The instruction of a table word, presented next: its record stands at the head of the trace (logs 1, 23). -/
def State.withFetchWord (s : State) (nbits w : Nat) : State := s.present (tableRecord nbits w)

end Sys2Proof.Machine
end

