-- ==== Sys2Proof/Safety.lean ====
section
/-! DEFINITION. The terms that claims use: runs of operations, reachable states (00_scope.md section 8), the contract on loaded records (42_snapshot.md R93) and the invariant of a unit that keeps to it. -/

namespace Sys2Proof

/-- An activation: a WR.CTL whose data has bit 7 = 1, or a LOAD whose record has it (30_encoding.md R53). A LOAD of a stream shorter
than a record has no record. -/
def Instr.activates : Instr → Bool
  | .reset => false
  | .tick _ => false
  | .rdTr => false
  | .rdCtl => false
  | .wrTr _ => false
  | .wrCtl data => Machine.act data
  | .save => false
  | .load _ stream =>
    match Machine.parseSnapshot Config.snapEndian stream with
    | some (x, _) => Machine.act x.ctl
    | none => false

/-- RESET and LOAD start a new history (10_state.md R22). -/
def Instr.startsHistory : Instr → Bool
  | .reset => true
  | .tick _ => false
  | .rdTr => false
  | .rdCtl => false
  | .wrTr _ => false
  | .wrCtl _ => false
  | .save => false
  | .load _ _ => true

/-- CTL after an operation that writes it as data, WR.CTL, and before any other (41_register_access.md R78). -/
def Instr.ctlWritten : Instr → Byte → Byte
  | .reset, ctl => ctl
  | .tick _, ctl => ctl
  | .rdTr, ctl => ctl
  | .rdCtl, ctl => ctl
  | .wrTr _, ctl => ctl
  | .wrCtl data, _ => data
  | .save, ctl => ctl
  | .load _ _, ctl => ctl

end Sys2Proof

namespace Sys2Proof.Machine

/-- The operations performed one after the other (20_memory.md R37). -/
def runOps : List Instr → State → Out
  | [], s => .next s
  | i :: is, s =>
    match exec i s with
    | .next t => runOps is t
    | .fault f => .fault f
    | .refused r => .refused r

/-- The results the operations hand to the environment, in order, up to the first that stops. -/
def resultsOf : List Instr → State → List OpResult
  | [], _ => []
  | i :: is, s =>
    match exec i s with
    | .next t => t.result :: resultsOf is t
    | .fault _ => []
    | .refused _ => []

/-- How many transfer-complete interrupts a run of operations raises (60_exceptions.md R105). -/
def irqCount (is : List Instr) (s : State) : Nat := (resultsOf is s).count (.irq true)

/-- A TICK of each of these cycle counts, in order. -/
def ticks (nows : List Word64) : List Instr := nows.map Instr.tick

/-- A TICK is a completion (30_encoding.md R53): on a valid unit (on an invalid one it is refused and returns no `irq`,
60_exceptions.md R104), effective, ACT = 1, and the countdown at zero or below (40_tick.md R66). -/
def completes (now : Word64) (s : State) : Bool :=
  s.valid && !isStale now s.last && act s.ctl && decide (countdown s.rem now s.last ≤ 0)

/-- `InContract(B)`: byte 0 of an 18-byte record is 0xFF (42_snapshot.md R93; D22, log 18). -/
abbrev InContract (bytes : List Byte) : Prop := bytes.length = Config.snapSize ∧ bytes.head? = some Config.trConst

/-- The further premise that 42_snapshot.md R93 allows: REM of the contents lies in the range of 10_state.md R23. -/
abbrev CountdownInRange (rem : Word64) : Prop := 0 ≤ sint rem ∧ sint rem ≤ (Config.tXfer : Int)

/-- What a LOAD of a stream would store keeps to the contract: TR is 0xFF and the countdown is in range. -/
def LoadKeepsContract (stream : List Byte) : Prop :=
  ∀ x rest, parseSnapshot Config.snapEndian stream = some (x, rest) → x.tr = Config.trConst ∧ CountdownInRange x.rem

/-- A reachable state: "a state reached from the reset state by any trace of RESET, TICK, RD, WR and SAVE, and of LOADs
whose record was produced by a SAVE of a reachable state" (00_scope.md section 8). The environment may present any records
at any time. -/
inductive Reachable : State → Prop
  | atReset : Reachable State.reset
  | presented {s : State} (bytes : List Byte) (h : Reachable s) : Reachable (s.advance bytes)
  | performed {s t : State} (i : Instr) (h : Reachable s) (notLoad : i.opcode ≠ .load) (e : exec i s = .next t) : Reachable t
  | restored {s t u v : State} (ver : Nat) (record more : List Byte) (h : Reachable s) (hu : Reachable u)
      (saved : exec .save u = .next v) (isRecord : v.result = .record record)
      (e : exec (.load ver (record ++ more)) s = .next t) : Reachable t

/-- The trace after some records have been taken off it; none where the codec refuses before. -/
def afterRecords : Nat → List Byte → Option (List Byte)
  | 0, bytes => some bytes
  | n + 1, bytes =>
    match decode bytes with
    | .record _ rest => afterRecords n rest
    | .reserved _ => none
    | .truncated _ => none
    | .ended => none

/-- Every LOAD that the trace still presents keeps to the contract. -/
def PendingLoadsKeepContract (bytes : List Byte) : Prop :=
  ∀ n here ver stream rest,
    afterRecords n bytes = some here → decode here = .record (.load ver stream) rest → LoadKeepsContract stream

/-- The invariant of a unit whose environment keeps to the contract: while it is valid, TR is 0xFF (10_state.md R21) and REM is in
range (R23); and what is still to be loaded keeps to the contract. -/
structure ContractInv (s : State) : Prop where
  transferRegister : s.valid = true → s.tr = Config.trConst
  countdownInRange : s.valid = true → CountdownInRange s.rem
  pendingLoads : PendingLoadsKeepContract s.trace

/-- Two units alike but for CLK, bit 0 of CTL, and for the result of the last operation (10_state.md R14). The fields of an invalid
unit are unspecified (42_snapshot.md R90) and are not compared. -/
structure AlikeButClk (s t : State) : Prop where
  valid : s.valid = t.valid
  trace : s.trace = t.trace
  fields : s.valid = true →
    s.tr = t.tr ∧ s.ctl &&& 0xFE#8 = t.ctl &&& 0xFE#8 ∧ s.rem = t.rem ∧ s.last = t.last

end Sys2Proof.Machine
end

