-- ==== Sys2Proof/Certificates/Slice0/Obligations.lean ====
section
/-! DEFINITION. The statements for the provers, from the numbered rules of spec/. A statement that gives the next state as an equation gives the operation's frame with it: every field not named is as before. -/

open Sys2Proof Sys2Proof.Machine

/-! ## Reset -/

/-- The state after power-on (10_state.md section 6). The bits 6:0 of CTL are the spec's decision D10 (log 5) and `valid` its
decision D14 (log 15). -/
def Obligations.PowerOnStateIsIdleWithNothingCounted : Prop :=
  State.reset.tr = 0xFF#8 ∧ State.reset.ctl = 0x00#8 ∧ State.reset.rem.toInt = 0 ∧ State.reset.last.toNat = 0 ∧
    State.reset.valid = true ∧ State.reset.phase = .idle

/-- RESET in every state, the invalid one too, puts the unit in its power-on state (70_reset_and_hazards.md section 1; the spec's
decisions D10, D19, logs 5, 16). -/
def Obligations.ResetRestoresThePowerOnStateFromEveryState : Prop :=
  ∀ s : State, exec .reset s =
    .next { State.reset with trace := s.trace, draws := s.draws }

/-! ## TICK -/

/-- A stale TICK changes no field and returns irq = 0, whatever ACT and REM are. For `now` below LAST this is the spec's decision
D5 (log 10). -/
def Obligations.StaleTickChangesNoField : Prop :=
  ∀ (s : State) (now : Word64), s.valid = true → now.toNat ≤ s.last.toNat →
    exec (.tick now) s = .next { s with result := .irq false }

/-- R64: on a non-stale TICK with ACT = 0 the only change is LAST. -/
def Obligations.IdleTickOnlyRecordsTheCount : Prop :=
  ∀ (s : State) (now : Word64), s.valid = true → s.last.toNat < now.toNat → s.ctl.getLsbD 7 = false →
    exec (.tick now) s = .next { s with last := now, result := .irq false }

/-- R66: completion, with result exactly 0 belonging to it and the overshoot discarded: ACT is cleared, bits 6:0 of CTL are
preserved, REM is 976, irq = 1. -/
def Obligations.CompletingTickRaisesTheInterrupt : Prop :=
  ∀ (s : State) (now : Word64), s.valid = true → s.last.toNat < now.toNat → s.ctl.getLsbD 7 = true →
    s.rem.toInt - ((now.toNat : Int) - (s.last.toNat : Int)) ≤ 0 →
    ∃ ctl : Byte,
      exec (.tick now) s = .next { s with last := now, ctl := ctl, rem := 976#64, result := .irq true } ∧
      ctl.getLsbD 7 = false ∧ ∀ k, k < 7 → ctl.getLsbD k = s.ctl.getLsbD k

/-- R67: still counting: REM becomes the difference, ACT stays 1, irq = 0. -/
def Obligations.NonCompletingTickDecrementsTheCountdown : Prop :=
  ∀ (s : State) (now : Word64), s.valid = true → s.last.toNat < now.toNat → s.ctl.getLsbD 7 = true →
    0 < s.rem.toInt - ((now.toNat : Int) - (s.last.toNat : Int)) →
    ∃ rem : Word64,
      exec (.tick now) s = .next { s with last := now, rem := rem, result := .irq false } ∧
      rem.toInt = s.rem.toInt - ((now.toNat : Int) - (s.last.toNat : Int))

/-- R62: on the non-stale path `elapsed` lies between 1 and 2^64 - 1 and the 64-bit modular difference equals the exact one. -/
def Obligations.ElapsedCyclesAreExact : Prop :=
  ∀ now last : Word64, last.toNat < now.toNat →
    1 ≤ elapsed now last ∧ elapsed now last ≤ 2 ^ 64 - 1 ∧
      elapsed now last = (now.toNat : Int) - (last.toNat : Int) ∧ elapsed now last = ((now - last).toNat : Int)

/-- The equivalent formulation in 64-bit words that needs no wide intermediate (40_tick.md section 2; the spec's decision D6, log 11):
completion if and only if REM is negative or its low 63 bits are at most `now - LAST`; otherwise an ordinary 64-bit subtraction. -/
def Obligations.CountdownEqualsItsFixedWidthForm : Prop :=
  ∀ (s : State) (now : Word64), s.valid = true → s.last.toNat < now.toNat → s.ctl.getLsbD 7 = true →
    exec (.tick now) s = .next
      (if s.rem.getLsbD 63 = true ∨ (s.rem.extractLsb' 0 63).toNat ≤ (now - s.last).toNat then
        { s with last := now, ctl := s.ctl &&& 0x7F#8, rem := 976#64, result := .irq true }
      else { s with last := now, rem := s.rem - (now - s.last), result := .irq false })

/-- R73: TICK is total on a valid unit, depends on nothing but LAST, ACT, REM and `now`, and has no effect on TR (nor on
bits 6:0 of CTL). -/
def Obligations.TickIsTotalAndReadsOnlyLastActAndRem : Prop :=
  ∀ (s s' : State) (now : Word64), s.valid = true → s'.valid = true →
    s.last = s'.last → s.ctl.getLsbD 7 = s'.ctl.getLsbD 7 → s.rem = s'.rem →
    ∃ (t t' : State) (irq : Bool), exec (.tick now) s = .next t ∧ exec (.tick now) s' = .next t' ∧
      t.result = .irq irq ∧ t'.result = .irq irq ∧ t.last = t'.last ∧ t.rem = t'.rem ∧
      t.ctl.getLsbD 7 = t'.ctl.getLsbD 7 ∧ t.tr = s.tr ∧ t.valid = true ∧
      ∀ k, k < 7 → t.ctl.getLsbD k = s.ctl.getLsbD k

/-- The transition table of the state machine, row by row (40_tick.md section 3). A TICK below LAST is stale by the spec's decision D5 (log 10),
a write of CTL leaves REM by its decision D7 (log 12), and the REM that a LOAD stores is read least significant byte first by its decision
D11 (log 6). -/
def Obligations.StateMachineFollowsItsTransitionTable : Prop :=
  (∀ (s : State) (now : Word64), s.valid = true →
    ∃ t, exec (.tick now) s = .next t ∧
      (s.phase = .idle → t.phase = .idle ∧ t.result = .irq false ∧ t.rem = s.rem) ∧
      (s.phase = .transferring → now.toNat ≤ s.last.toNat →
        t.phase = .transferring ∧ t.result = .irq false ∧ t.rem = s.rem) ∧
      (s.phase = .transferring → s.last.toNat < now.toNat → (now.toNat : Int) - (s.last.toNat : Int) < s.rem.toInt →
        t.phase = .transferring ∧ t.result = .irq false ∧
          t.rem.toInt = s.rem.toInt - ((now.toNat : Int) - (s.last.toNat : Int))) ∧
      (s.phase = .transferring → s.last.toNat < now.toNat → s.rem.toInt ≤ (now.toNat : Int) - (s.last.toNat : Int) →
        t.phase = .idle ∧ t.result = .irq true ∧ t.rem.toInt = 976)) ∧
  (∀ (s : State) (data : Byte), s.valid = true →
    ∃ t, exec (.wrCtl data) s = .next t ∧ t.rem = s.rem ∧ t.result = .done ∧
      (data.getLsbD 7 = true → t.phase = .transferring) ∧ (data.getLsbD 7 = false → t.phase = .idle)) ∧
  (∀ (s : State) (i : Instr), s.valid = true → i.opcode ∈ [.rdTr, .rdCtl, .wrTr, .save] →
    ∃ t, exec i s = .next t ∧ t.phase = s.phase ∧ t.rem = s.rem ∧ ∀ b, t.result ≠ .irq b) ∧
  (∀ (s : State) (ver : Nat) (stream : List Byte), 18 ≤ stream.length →
    ∃ t, exec (.load ver stream) s = .next t ∧ (∀ b, t.result ≠ .irq b) ∧
      t.phase = (if (stream.getD 1 0#8).getLsbD 7 then .transferring else .idle) ∧
      t.rem = BitVec.ofNat 64 (fromLe ((stream.drop 10).take 8))) ∧
  (∀ s : State, ∃ t, exec .reset s = .next t ∧ t.phase = .idle ∧ t.rem.toInt = 0 ∧ ∀ b, t.result ≠ .irq b)

/-- R105: the transfer-complete interrupt is raised by the completing TICK and by nothing else (a TICK below LAST completes nothing by the spec's
decision D5, log 10). -/
def Obligations.OnlyACompletingTickRaisesTheInterrupt : Prop :=
  ∀ (i : Instr) (s t : State), exec i s = .next t →
    (t.irqPulse = true ↔
      ∃ now, i = .tick now ∧ s.last.toNat < now.toNat ∧ s.ctl.getLsbD 7 = true ∧
        s.rem.toInt ≤ (now.toNat : Int) - (s.last.toNat : Int))

/-- R68 and R72: over any operations there are at most as many completions as activations, one more if ACT was set before them. With no
activation among them (LOADs of a record with bit 7 clear and short LOADs are none) at most one completion is reported, and none at all if ACT
was clear before them or the unit invalid; a transfer cancelled by a WR.CTL that clears bit 7 reports none. -/
def Obligations.AtMostOneCompletionPerActivation : Prop :=
  (∀ (ops : List Instr) (s : State),
    irqCount ops s ≤ ops.countP Instr.activates + (if s.ctl.getLsbD 7 then 1 else 0)) ∧
  ∀ (ops : List Instr) (s : State), (∀ i ∈ ops, i.activates = false) →
    irqCount ops s ≤ 1 ∧ (s.ctl.getLsbD 7 = false ∨ s.valid = false → irqCount ops s = 0) ∧
      (∀ now t, exec (.tick now) s = .next t → t.result = .irq true → irqCount ops t = 0) ∧
      (∀ data : Byte, data.getLsbD 7 = false → irqCount (.wrCtl data :: ops) s = 0)

/-- R71: from ACT = 1, REM = 976 and LAST = L, TICKs with strictly increasing `now` above L return irq = 1 exactly once, at the first
whose `now - L` is at least 976, and irq = 0 at every other. -/
def Obligations.FullTransferCompletesAtTheFirstTickPast976 : Prop :=
  ∀ (s : State) (nows : List Word64), s.valid = true → s.ctl.getLsbD 7 = true → s.rem.toInt = 976 →
    List.Pairwise (fun a b : Word64 => a.toNat < b.toNat) (s.last :: nows) →
    (resultsOf (ticks nows) s).length = nows.length ∧
    (∀ (k : Nat) (hk : k < nows.length),
      (resultsOf (ticks nows) s)[k]? =
        some (.irq (decide (s.last.toNat + 976 ≤ nows[k].toNat ∧
          ∀ n ∈ nows.take k, n.toNat < s.last.toNat + 976)))) ∧
    ((∃ n ∈ nows, s.last.toNat + 976 ≤ n.toNat) → irqCount (ticks nows) s = 1)

/-- Only the elapsed delta and the stored count matter: TICKs that complete nothing, however they are spaced, leave no trace in what a
later TICK does (40_tick.md section 4, design rationale; 70_reset_and_hazards.md section 3). -/
def Obligations.SpacingOfTicksDoesNotMatter : Prop :=
  ∀ (s : State) (nows : List Word64) (now : Word64), s.valid = true → (∀ n ∈ nows, n.toNat ≤ now.toNat) →
    irqCount (ticks nows) s = 0 →
    runOps (ticks nows ++ [.tick now]) s = exec (.tick now) s

/-- R113: after a completion the next WR.CTL with bit 7 = 1 starts a transfer that completes when 976 further cycles have been
observed. -/
def Obligations.ActivationAfterCompletionCountsAFullTransfer : Prop :=
  ∀ (s t : State) (now later : Word64) (data : Byte), exec (.tick now) s = .next t → t.result = .irq true →
    data.getLsbD 7 = true → now.toNat < later.toNat →
    t.phase = .idle ∧ t.rem.toInt = 976 ∧
    ∃ u v, exec (.wrCtl data) t = .next u ∧ u.phase = .transferring ∧ exec (.tick later) u = .next v ∧
      v.result = .irq (decide (976 ≤ later.toNat - now.toNat))

/-- Over any TICKs, in any order, LAST ends at the largest count seen (40_tick.md sections 1 and 2; the spec's decision D5, log 10). -/
def Obligations.LastIsTheLargestCountSeen : Prop :=
  ∀ (s : State) (nows : List Word64), s.valid = true →
    ∃ t, runOps (ticks nows) s = .next t ∧
      t.last.toNat = nows.foldl (fun m n => max m n.toNat) s.last.toNat

/-! ## The register port -/

/-- R33: a read changes no field, raises no fault and no interrupt and does not clear ACT; reading the same register twice
returns the same byte twice. -/
def Obligations.ReadsHaveNoSideEffect : Prop :=
  ∀ (i : Instr) (s : State), i = .rdTr ∨ i = .rdCtl → s.valid = true →
    ∃ b : Byte, exec i s = .next { s with result := .byte b } ∧
      exec i { s with result := .byte b } = .next { s with result := .byte b }

/-- RD.TR and RD.CTL return the stored byte, no bit forced (41_register_access.md section 1; the spec's decision D9, log 14). -/
def Obligations.ReadsReturnTheStoredByte : Prop :=
  ∀ s : State, s.valid = true →
    exec .rdTr s = .next { s with result := .byte s.tr } ∧ exec .rdCtl s = .next { s with result := .byte s.ctl }

/-- WR.TR is accepted and discarded, so the next RD.TR returns what TR held (41_register_access.md section 2; the spec's decision D8,
log 13). -/
def Obligations.WriteOfTrIsDiscarded : Prop :=
  ∀ (s : State) (data : Byte), s.valid = true →
    exec (.wrTr data) s = .next { s with result := .done } ∧
      resultsOf [.wrTr data, .rdTr] s = [.done, .byte s.tr]

/-- R78: WR.CTL replaces all eight bits of CTL and changes nothing else; on an invalid unit it is refused (there the rule rests on the
spec's decision D20, log 15). -/
def Obligations.WriteOfCtlReplacesAllEightBits : Prop :=
  ∀ (s : State) (data : Byte),
    (s.valid = true → exec (.wrCtl data) s = .next { s with ctl := data, result := .done }) ∧
      (s.valid = false → exec (.wrCtl data) s = .refused .invalidUnit)

/-- A write is seen by the next operation: a set bit 7 is honoured by the very next effective TICK, an RD.CTL after a completing TICK
returns bit 7 = 0, and a SAVE after any operation records that operation's result (20_memory.md section 4). That the write leaves the REM
counted down from is the spec's decision D7 (log 12), the byte order of the record its decision D11 (log 6). -/
def Obligations.EachOperationSeesTheOneBefore : Prop :=
  (∀ (s : State) (data : Byte) (now : Word64), s.valid = true → data.getLsbD 7 = true → s.last.toNat < now.toNat →
    ∃ t u, exec (.wrCtl data) s = .next t ∧ exec (.tick now) t = .next u ∧
      (s.rem.toInt ≤ (now.toNat : Int) - (s.last.toNat : Int) → u.result = .irq true) ∧
      ((now.toNat : Int) - (s.last.toNat : Int) < s.rem.toInt →
        u.result = .irq false ∧ u.rem.toInt = s.rem.toInt - ((now.toNat : Int) - (s.last.toNat : Int)))) ∧
  (∀ (s t : State) (now : Word64), exec (.tick now) s = .next t → t.result = .irq true →
    ∃ u b, exec .rdCtl t = .next u ∧ u.result = .byte b ∧ b.getLsbD 7 = false) ∧
  (∀ (i : Instr) (s t : State), exec i s = .next t → t.valid = true →
    ∃ u, exec .save t = .next u ∧
      u.result = .record ([t.tr, t.ctl] ++ leBytes 8 t.last.toNat ++ leBytes 8 t.rem.toNat))

/-- R16: while ACT = 0 REM keeps the last value written to it, no operation but RESET and LOAD changes it, and that value is what the
next activation counts down from. -/
def Obligations.IdleCountdownIsKeptForTheNextActivation : Prop :=
  ∀ (ops : List Instr) (s t : State) (data : Byte) (now : Word64), s.ctl.getLsbD 7 = false →
    (∀ i ∈ ops, i.activates = false ∧ i.startsHistory = false) → s.valid = true → runOps ops s = .next t →
    data.getLsbD 7 = true → t.last.toNat < now.toNat →
    t.rem = s.rem ∧
    ∃ u v, exec (.wrCtl data) t = .next u ∧ u.rem = s.rem ∧ exec (.tick now) u = .next v ∧
      (s.rem.toInt ≤ (now.toNat : Int) - (t.last.toNat : Int) → v.result = .irq true) ∧
      ((now.toNat : Int) - (t.last.toNat : Int) < s.rem.toInt →
        v.result = .irq false ∧ v.rem.toInt = s.rem.toInt - ((now.toNat : Int) - (t.last.toNat : Int)))

/-! ## Who writes which field, over all operations -/

/-- LAST is written by every effective TICK whether or not ACT is set, by RESET and by LOAD, and by nothing else (10_state.md section 2.3). That a
TICK below LAST is not effective is the spec's decision D5 (log 10); the LAST that a LOAD stores is read least significant byte first by its
decision D11 (log 6). -/
def Obligations.LastIsWrittenOnlyByEffectiveTickResetAndLoad : Prop :=
  ∀ (i : Instr) (s t : State), exec i s = .next t →
    (∀ now, i = .tick now → t.last = if s.last.toNat < now.toNat then now else s.last) ∧
    (i = .reset → t.last.toNat = 0) ∧
    (∀ ver stream, i = .load ver stream → 18 ≤ stream.length →
      t.last = BitVec.ofNat 64 (fromLe ((stream.drop 2).take 8))) ∧
    (i.opcode ∈ [.rdTr, .rdCtl, .wrTr, .wrCtl, .save] → t.last = s.last)

/-- What sets and clears ACT, over all operations (10_state.md section 2.2): as a side effect only the completing TICK clears it; nothing sets it
but data written or loaded. -/
def Obligations.ActChangesOnlyByCompletionAndByData : Prop :=
  ∀ (i : Instr) (s t : State), exec i s = .next t →
    (∀ now, i = .tick now → t.ctl.getLsbD 7 = (s.ctl.getLsbD 7 && decide (t.result = .irq false))) ∧
    (∀ data, i = .wrCtl data → t.ctl.getLsbD 7 = data.getLsbD 7) ∧
    (i = .reset → t.ctl.getLsbD 7 = false) ∧
    (∀ ver stream, i = .load ver stream → 18 ≤ stream.length → t.ctl.getLsbD 7 = (stream.getD 1 0#8).getLsbD 7) ∧
    (i.opcode ∈ [.rdTr, .rdCtl, .wrTr, .save] → t.ctl = s.ctl)

/-- Only RESET and LOAD write TR (10_state.md section 2.1), whatever TR holds; for WR.TR this is the spec's decision D8 (log 13). -/
def Obligations.OnlyResetAndLoadWriteTr : Prop :=
  ∀ (i : Instr) (s t : State), exec i s = .next t →
    (i.opcode ≠ .reset → i.opcode ≠ .load → t.tr = s.tr) ∧
    (i = .reset → t.tr = 0xFF#8) ∧
    (∀ ver stream, i = .load ver stream → 18 ≤ stream.length → t.tr = stream.getD 0 0#8)

/-- R14: CLK has no effect on any operation. Two units alike but for CLK take the same outcome, stay alike but for CLK, and hand out the same
results but for the stored bit itself: bit 0 of the byte of an RD.CTL, and bit 0 of byte 1 of the record of a SAVE (the fields of an invalid unit are not compared: they are unspecified); so do writes of CTL that differ only in bit 0. -/
def Obligations.ClockSelectHasNoEffect : Prop :=
  (∀ (i : Instr) (s s' : State), AlikeButClk s s' →
    (∃ r, exec i s = .refused r ∧ exec i s' = .refused r) ∨
    ∃ t t', exec i s = .next t ∧ exec i s' = .next t' ∧ AlikeButClk t t' ∧
      (i.opcode ≠ .rdCtl → i.opcode ≠ .save → t.result = t'.result) ∧
      (i = .rdCtl → ∃ b b' : Byte, t.result = .byte b ∧ t'.result = .byte b' ∧ b &&& 0xFE#8 = b' &&& 0xFE#8) ∧
      (i = .save → ∃ (a b b' : Byte) (more : List Byte), t.result = .record (a :: b :: more) ∧
        t'.result = .record (a :: b' :: more) ∧ b &&& 0xFE#8 = b' &&& 0xFE#8)) ∧
  (∀ (s s' : State) (d d' : Byte), AlikeButClk s s' → s.valid = true → d &&& 0xFE#8 = d' &&& 0xFE#8 →
    ∃ t t', exec (.wrCtl d) s = .next t ∧ exec (.wrCtl d') s' = .next t' ∧ AlikeButClk t t' ∧ t.result = t'.result)

/-- A guest program, which uses the REG port only, cannot change REM or LAST, and what it reads does not depend on them
(41_register_access.md section 2). -/
def Obligations.GuestCannotReachTheCountdown : Prop :=
  ∀ (ops : List Instr) (s : State), (∀ i ∈ ops, i.port.role = .guest) →
    (∀ rem last : Word64, resultsOf ops { s with rem := rem, last := last } = resultsOf ops s) ∧
      ∀ t, runOps ops s = .next t → t.rem = s.rem ∧ t.last = s.last

/-- Bits 6:0 of a byte written to CTL pass through unmodified: whatever TICKs, reads, WR.TR and SAVEs follow, RD.CTL returns them as
written (10_state.md section 2.2; for the read, the spec's decision D9, log 14). -/
def Obligations.ReservedBitsPassThroughUnmodified : Prop :=
  ∀ (ops : List Instr) (s : State) (data : Byte), s.valid = true →
    (∀ i ∈ ops, i.opcode ∈ [.tick, .rdTr, .rdCtl, .wrTr, .save]) →
    ∃ t u b, runOps (.wrCtl data :: ops) s = .next t ∧ exec .rdCtl t = .next u ∧ u.result = .byte b ∧
      rsv b = rsv data ∧ clk b = clk data

/-! ## SAVE and LOAD -/

/-- R85: SAVE emits the record of the current state, TR, CTL, LAST, REM in this order, and changes nothing; on an invalid unit it is refused (there
the rule rests on the spec's decision D20, log 15; the byte order that R85 writes as `le_bytes_8` is its decision D11, log 6). -/
def Obligations.SaveEmitsTheFourFieldsInOrder : Prop :=
  ∀ s : State,
    (s.valid = true → exec .save s = .next
      { s with result := .record ([s.tr] ++ [s.ctl] ++ leBytes 8 s.last.toNat ++ leBytes 8 (BitVec.ofInt 64 s.rem.toInt).toNat) }) ∧
      (s.valid = false → exec .save s = .refused .invalidUnit)

/-- The record byte by byte (30_encoding.md section 4; little-endian by the spec's decision D11, log 6): TR at offset 0, CTL at 1, bits 8k+7:8k of
LAST at 2 + k and of REM's two's complement image at 10 + k. -/
def Obligations.RecordHasEachFieldAtItsOffset : Prop :=
  ∀ s : State, s.valid = true →
    ∃ bytes, exec .save s = .next { s with result := .record bytes } ∧ bytes.length = 18 ∧
      bytes[0]? = some s.tr ∧ bytes[1]? = some s.ctl ∧
      ∀ k, k < 8 → bytes[2 + k]? = some (s.last.extractLsb' (8 * k) 8) ∧ bytes[10 + k]? = some (s.rem.extractLsb' (8 * k) 8)

/-- R88 and R89: LOAD overwrites all four fields with the 18 bytes at the head of the stream, whatever the unit held and whatever `ver` is, and
returns the rest; its only fault is MalformedSnapshot, where the stream is shorter (that the fault is a next state is the model's choice, log 4;
the byte order that R88 writes as `from_le_8` is the spec's decision D11, log 6). -/
def Obligations.LoadReplacesAllFourFields : Prop :=
  (∀ (s : State) (ver : Nat) (a b : Byte) (l r rest : List Byte), l.length = 8 → r.length = 8 →
    exec (.load ver ([a] ++ [b] ++ l ++ r ++ rest)) s = .next
      { s with
        tr := a
        ctl := b
        last := BitVec.ofNat 64 (fromLe l)
        rem := BitVec.ofInt 64 (if fromLe r < 2 ^ 63 then (fromLe r : Int) else (fromLe r : Int) - 2 ^ 64)
        valid := true
        result := .rest rest }) ∧
  (∀ (s : State) (ver : Nat) (stream : List Byte), stream.length < 18 →
    ∃ t, exec (.load ver stream) s = .next t ∧ t.result = .fault .malformedSnapshot)

/-- A LOAD of fewer than 18 bytes leaves the unit invalid (its fields are free values): every operation but RESET and LOAD is then refused,
a further short LOAD leaves it invalid, and RESET or a full LOAD makes it valid again (60_exceptions.md section 1; the spec's decisions D14, D20, logs 4, 15). -/
def Obligations.ShortLoadInvalidatesTheUnitUntilResetOrLoad : Prop :=
  ∀ (s : State) (ver : Nat) (stream : List Byte), stream.length < 18 →
    ∃ t, exec (.load ver stream) s = .next t ∧ t.valid = false ∧ t.result = .fault .malformedSnapshot ∧ t.trace = s.trace ∧
      (∀ i : Instr, i.opcode ≠ .reset → i.opcode ≠ .load → exec i t = .refused .invalidUnit) ∧
      (∃ u, exec .reset t = .next u ∧ u.valid = true) ∧
      (∀ (ver' : Nat) (stream' : List Byte), ∃ u, exec (.load ver' stream') t = .next u ∧
        u.valid = decide (18 ≤ stream'.length))

/-- The round trip, both ways (42_snapshot.md section 2): a LOAD of what a SAVE emitted, into a unit in any state, leaves exactly the saved fields
and the rest of the stream; and a SAVE after a LOAD of any 18 bytes emits them again. -/
def Obligations.SaveAndLoadAreInverse : Prop :=
  (∀ (s u : State) (ver : Nat) (more : List Byte), s.valid = true →
    ∃ t bytes, exec .save s = .next t ∧ t.result = .record bytes ∧
      exec (.load ver (bytes ++ more)) u = .next
        { u with tr := s.tr, ctl := s.ctl, rem := s.rem, last := s.last, valid := true, result := .rest more }) ∧
  (∀ (u : State) (ver : Nat) (bytes : List Byte), bytes.length = 18 →
    ∃ t v, exec (.load ver bytes) u = .next t ∧ t.result = .rest [] ∧ exec .save t = .next v ∧ v.result = .record bytes)

/-- Two states whose SAVEs emit the same bytes are equal field for field (42_snapshot.md section 1). -/
def Obligations.RecordDeterminesTheFourFields : Prop :=
  ∀ (s s' t t' : State) (bytes : List Byte), exec .save s = .next t → exec .save s' = .next t' →
    t.result = .record bytes → t'.result = .record bytes →
    s.tr = s'.tr ∧ s.ctl = s'.ctl ∧ s.rem = s'.rem ∧ s.last = s'.last

/-! ## Outcomes -/

/-- R100: the one fault is MalformedSnapshot, and only a LOAD whose stream holds fewer than 18 bytes raises it (that it stands in the
`result` of a next state is the model's choice, log 4). -/
def Obligations.OnlyAShortLoadFaults : Prop :=
  ∀ (i : Instr) (s t : State), exec i s = .next t →
    ((∃ f, t.result = .fault f) ↔ ∃ ver stream, i = .load ver stream ∧ stream.length < 18) ∧
      ∀ f, t.result = .fault f → f = .malformedSnapshot

/-- Every operation on a valid unit, and RESET and LOAD on every unit, answers a next state; every other operation on an invalid unit is refused
(20_memory.md section 4, 60_exceptions.md section 1; the spec's decision D20, log 15; that the fault is a next state is the model's choice, log 4). -/
def Obligations.EveryAcceptedOperationCompletes : Prop :=
  ∀ (i : Instr) (s : State),
    ((∃ t, exec i s = .next t) ↔ s.valid = true ∨ i.opcode = .reset ∨ i.opcode = .load) ∧
      (s.valid = false → i.opcode ≠ .reset → i.opcode ≠ .load → exec i s = .refused .invalidUnit)

/-- The spec's numbers of the outcomes (60_exceptions.md section 1; the spec's decision D15, log 22), at the step. -/
def Obligations.OutcomesHaveTheirNumbers : Prop :=
  ∀ s : State,
    (∀ opc, decode s.trace = .reserved opc → outcomeCode (step s) = some 2) ∧
    (∀ op, decode s.trace = .truncated op → outcomeCode (step s) = some 4) ∧
    (∀ i rest, decode s.trace = .record i rest → i.opcode ≠ .load →
      (s.valid = true ∨ i.opcode = .reset → outcomeCode (step s) = some 0) ∧
      (s.valid = false → i.opcode ≠ .reset → outcomeCode (step s) = some 3)) ∧
    (∀ ver stream rest, decode s.trace = .record (.load ver stream) rest →
      outcomeCode (step s) = some (if 18 ≤ stream.length then 0 else 1))

/-! ## Reachable states and invariants -/

/-- R21: in every reachable state TR = 0xFF; and a LOAD of a record whose byte 0 is not 0xFF breaks the invariant: the byte is stored. -/
def Obligations.TransferRegisterIsAllOnesWhereverReachable : Prop :=
  (∀ s : State, Reachable s → s.tr = 0xFF#8) ∧
    ∀ (s : State) (ver : Nat) (a : Byte) (more : List Byte), 17 ≤ more.length →
      ∃ t, exec (.load ver (a :: more)) s = .next t ∧ t.tr = a

/-- In every reachable state the unit is valid and 0 <= int(REM) <= 976 (10_state.md section 5). -/
def Obligations.CountdownStaysInRangeWhereverReachable : Prop :=
  ∀ s : State, Reachable s → s.valid = true ∧ 0 ≤ s.rem.toInt ∧ s.rem.toInt ≤ 976

/-- R22: along any trace of TICK, RD, WR and SAVE operations LAST never decreases (that a TICK below LAST leaves it is the spec's
decision D5, log 10). -/
def Obligations.LastNeverDecreases : Prop :=
  ∀ (ops : List Instr) (s t : State), (∀ i ∈ ops, i.startsHistory = false) → runOps ops s = .next t →
    s.last.toNat ≤ t.last.toNat

/-- Every record that SAVE emits from a reachable state satisfies `InContract` (42_snapshot.md section 2; the spec's decision D22, log 18). -/
def Obligations.SavesOfReachableStatesAreInContract : Prop :=
  ∀ s : State, Reachable s → ∃ t bytes, exec .save s = .next t ∧ t.result = .record bytes ∧ InContract bytes

/-- The invariant holds at reset (the reset values of 10_state.md section 6). -/
def Obligations.ResetMeetsTheContractInvariant : Prop := ContractInv State.reset

/-- Every step keeps the invariant, in every state and with any trace whose LOADs keep to the contract (10_state.md section 5,
42_snapshot.md section 2). -/
def Obligations.StepKeepsTheContractInvariant : Prop :=
  ∀ s s' : State, ContractInv s → step s = .next s' → ContractInv s'

/-! ## Hazards -/

/-- The first transfer after RESET completes at the first effective TICK, whatever its `now` (70_reset_and_hazards.md section 3; the spec's decision
D7, log 12). -/
def Obligations.FirstTransferAfterResetCompletesAtOnce : Prop :=
  ∀ (s : State) (data : Byte) (now : Word64), data.getLsbD 7 = true → 0 < now.toNat →
    resultsOf [.reset, .wrCtl data, .tick 0#64, .tick now] s = [.done, .done, .irq false, .irq true]

/-- Writing bit 7 during a transfer does not restart the countdown, and a transfer cancelled and activated again goes on from the partly decremented
count (70_reset_and_hazards.md section 3; the spec's decision D7, log 12). -/
def Obligations.RewritingActNeverRestoresTheCountdown : Prop :=
  ∀ (s : State) (n1 n2 : Word64) (d0 d1 : Byte), s.valid = true → s.ctl.getLsbD 7 = true →
    s.last.toNat < n1.toNat → (n1.toNat : Int) - (s.last.toNat : Int) < s.rem.toInt → n1.toNat < n2.toNat →
    d0.getLsbD 7 = false → d1.getLsbD 7 = true →
    resultsOf [.tick n1, .wrCtl d1, .tick n2] s =
        [.irq false, .done, .irq (decide (s.rem.toInt ≤ (n2.toNat : Int) - (s.last.toNat : Int)))] ∧
      resultsOf [.tick n1, .wrCtl d0, .wrCtl d1, .tick n2] s =
        [.irq false, .done, .done, .irq (decide (s.rem.toInt ≤ (n2.toNat : Int) - (s.last.toNat : Int)))]

/-- No effective TICK, no completion (70_reset_and_hazards.md section 3): operations with no TICK among them, whatever they are, raise no interrupt; and
stale TICKs, reads, writes, activations too, and SAVEs, however many, raise none and leave every field as it was but for CTL, which holds the
data last written (that a TICK below LAST is stale is the spec's decision D5, log 10; that a write of TR or CTL writes nothing else, its decisions
D8 and D7, logs 13, 12). With LAST = 2^64 - 1 every TICK is stale. -/
def Obligations.WithoutAnEffectiveTickNothingCompletes : Prop :=
  (∀ (ops : List Instr) (s : State), (∀ i ∈ ops, i.opcode ≠ .tick) → irqCount ops s = 0) ∧
  ∀ (ops : List Instr) (s : State), s.valid = true →
    (∀ i ∈ ops, i.opcode ∈ [.tick, .rdTr, .rdCtl, .wrTr, .wrCtl, .save] ∧ ∀ now, i = .tick now → now.toNat ≤ s.last.toNat) →
    irqCount ops s = 0 ∧
      ∃ r, runOps ops s = .next { s with ctl := ops.foldl (fun ctl i => i.ctlWritten ctl) s.ctl, result := r }

/-! ## The codec and the step -/

/-- Decoding what the encoder wrote gives the operation back with every operand, and the bytes after the record (30_encoding.md section 3; the codes
are the spec's decision D2, log 7). -/
def Obligations.DecodeGivesBackWhatEncodeWrote : Prop :=
  ∀ (i : Instr) (rest : List Byte), i.WF → decode (encode i ++ rest) = .record i rest

/-- Each byte sequence has one meaning: what decodes to an operation is exactly its record and the rest, and the operation is well-formed
(30_encoding.md section 3; the spec's decision D2, log 7). -/
def Obligations.EncodeGivesBackWhatDecodeRead : Prop :=
  ∀ (i : Instr) (bytes rest : List Byte), decode bytes = .record i rest → i.WF ∧ bytes = encode i ++ rest

/-- Every code but the eight is refused, whatever follows it, and the unit is not reached (30_encoding.md section 5; the spec's decisions D2, D16, log 7). -/
def Obligations.EveryOtherCodeIsRefused : Prop :=
  ∀ (opc : Byte) (more : List Byte) (s : State), s.trace = opc :: more →
    ((opc ∉ [0x00#8, 0x02#8, 0x04#8, 0x05#8, 0x06#8, 0x07#8, 0x08#8, 0x0A#8]) ↔ step s = .refused .reservedOperation)

/-- A record cut short anywhere after its code is refused as truncated (30_encoding.md section 7; the spec's decision D2, log 7). -/
def Obligations.CutRecordIsTruncated : Prop :=
  ∀ (i : Instr) (front back : List Byte), i.WF → encode i = front ++ back → front ≠ [] → back ≠ [] →
    decode front = .truncated i.opcode ∧ ∀ s : State, s.trace = front → step s = .refused .truncatedRecord

/-- The ten decoding examples of the spec (95_test_vectors.md section 2.4, the spec's decision D2, log 7). -/
def Obligations.RecordsOfTheSpecDecode : Prop :=
  decode [0x00#8] = .record .reset [] ∧
  decode [0x02#8, 0xE8#8, 0x03#8, 0#8, 0#8, 0#8, 0#8, 0#8, 0#8] = .record (.tick 1000#64) [] ∧
  decode [0x02#8, 0xFF#8, 0xFF#8, 0xFF#8, 0xFF#8, 0xFF#8, 0xFF#8, 0xFF#8, 0xFF#8] =
    .record (.tick 0xFFFFFFFFFFFFFFFF#64) [] ∧
  decode [0x04#8] = .record .rdTr [] ∧ decode [0x05#8] = .record .rdCtl [] ∧
  decode [0x06#8, 0x42#8] = .record (.wrTr 0x42#8) [] ∧ decode [0x07#8, 0x81#8] = .record (.wrCtl 0x81#8) [] ∧
  decode [0x08#8] = .record .save [] ∧ decode [0x0A#8, 0x03#8, 0x00#8] = .record (.load 3 []) [] ∧
  decode [0x0A#8, 0x00#8, 0x05#8, 0xFF#8, 0x81#8, 0x84#8, 0x03#8, 0x00#8] =
    .record (.load 0 [0xFF#8, 0x81#8, 0x84#8, 0x03#8, 0x00#8]) []

/-- A step runs the operation that the trace presents next, with its record taken off the trace, and there is no other step
(00_scope.md section 1, 30_encoding.md section 7; the trace is the model's own, logs 1, 3). -/
def Obligations.StepRunsThePresentedOperation : Prop :=
  ∀ s : State,
    (∀ i rest, i.WF → s.trace = encode i ++ rest → step s = exec i { s with trace := rest }) ∧
    (∀ i rest, decode s.trace = .record i rest → step s = exec i { s with trace := rest }) ∧
    (∀ opc, decode s.trace = .reserved opc → step s = .refused .reservedOperation) ∧
    (∀ op, decode s.trace = .truncated op → step s = .refused .truncatedRecord) ∧
    (s.trace = [] → step s = .refused .noOperation)

/-- A run of the machine over the bytes of a trace is the run of its operations in order (20_memory.md section 4, 30_encoding.md section 3; the trace is
the model's own, log 1). -/
def Obligations.RunOfATraceIsTheRunOfItsOperations : Prop :=
  ∀ (ops : List Instr) (s : State) (rest : List Byte), (∀ i ∈ ops, i.WF) →
    Sys2Proof.core.run ops.length { s with trace := encodeTrace ops ++ rest } = runOps ops { s with trace := rest }

/-- No operation reads the last result (the interrupt is not latched) or the pending trace, and none changes the trace (60_exceptions.md section 2; both fields are
the model's own, logs 1, 2). -/
def Obligations.NoOperationReadsResultOrTrace : Prop :=
  ∀ (i : Instr) (s : State) (r : OpResult) (bytes : List Byte),
    exec i { s with result := r, trace := bytes } =
      match exec i s with
      | .next t => .next { t with trace := bytes }
      | .fault f => .fault f
      | .refused x => .refused x

/-! ## What the words activation and completion name -/

/-- An activation is a WR.CTL whose data has bit 7 = 1 or a LOAD whose record has it: it leaves the unit valid and Transferring, and nothing else moves it
there. A completion is the TICK that returns irq = 1. Neither is an operation of its own, and only RESET, TICK and LOAD write REM
(30_encoding.md section 6; for WR.CTL the spec's decision D7, log 12; that a TICK below LAST completes nothing, its decision D5, log 10). -/
def Obligations.ActivationAndCompletionAreWhatTheSpecNames : Prop :=
  (∀ i : Instr, i.activates = true ↔
    (∃ data, i = .wrCtl data ∧ data.getLsbD 7 = true) ∨
    ∃ ver stream, i = .load ver stream ∧ 18 ≤ stream.length ∧ (stream.getD 1 0#8).getLsbD 7 = true) ∧
  (∀ (i : Instr) (s t : State), exec i s = .next t →
    (i.activates = true → t.valid = true ∧ t.phase = .transferring) ∧
    (i.activates = false → t.valid = true → t.phase = .transferring → s.valid = true ∧ s.phase = .transferring) ∧
    (i.opcode ∉ [.reset, .tick, .load] → t.rem = s.rem)) ∧
  (∀ (now : Word64) (s : State), completes now s = true ↔ ∃ t, exec (.tick now) s = .next t ∧ t.result = .irq true)
end

