-- ==== Sys2Proof/Laws/Bytes.lean ====
section
/-! SUPPORT. Byte strings and byte order: the two directions of `le_bytes_N` and `from_le_N`, and what a stream read can answer. -/

namespace Sys2Proof.Machine

@[simp] theorem leBytes_length (n v : Nat) : (leBytes n v).length = n := by
  induction n generalizing v with
  | zero => rfl
  | succ n ih => simp [leBytes, ih]

/-- Byte k of `le_bytes_N(v)` is bits 8k+7:8k of v. -/
theorem leBytes_getElem? (n v k : Nat) (h : k < n) :
    (leBytes n v)[k]? = some (BitVec.ofNat 8 (v / 256 ^ k)) := by
  induction n generalizing v k with
  | zero => omega
  | succ n ih =>
    cases k with
    | zero => simp [leBytes]
    | succ k =>
      have := ih (v / 256) k (by omega)
      simp only [leBytes, List.getElem?_cons_succ, this, Nat.div_div_eq_div_mul, Nat.pow_succ, Nat.mul_comm]

/-- `from_le_N(bs)` fits N bytes. -/
theorem fromLe_lt (bs : List Byte) : fromLe bs < 256 ^ bs.length := by
  induction bs with
  | nil => simp [fromLe]
  | cons b bs ih =>
    have hb : b.toNat < 256 := b.isLt
    simp only [fromLe, List.length_cons, Nat.pow_succ]
    omega

/-- `from_le_N(le_bytes_N(v)) = v` for a v of N bytes. -/
theorem fromLe_leBytes (n v : Nat) (h : v < 256 ^ n) : fromLe (leBytes n v) = v := by
  induction n generalizing v with
  | zero => simp only [Nat.pow_zero] at h; simp [leBytes, fromLe]; omega
  | succ n ih =>
    rw [Nat.pow_succ] at h
    have hd := ih (v / 256) (by omega)
    simp only [leBytes, fromLe, hd, BitVec.toNat_ofNat]
    omega

/-- `le_bytes_N(from_le_N(bs)) = bs` for N bytes. -/
theorem leBytes_fromLe (bs : List Byte) : leBytes bs.length (fromLe bs) = bs := by
  induction bs with
  | nil => rfl
  | cons b bs ih =>
    have hb : b.toNat < 256 := b.isLt
    have h1 : (b.toNat + 256 * fromLe bs) / 256 = fromLe bs := by omega
    have h2 : BitVec.ofNat 8 (b.toNat + 256 * fromLe bs) = b := by
      apply BitVec.eq_of_toNat_eq
      simp only [BitVec.toNat_ofNat]
      omega
    simp only [List.length_cons, leBytes, fromLe, h1, h2, ih]

@[simp] theorem toBytes8_length (e : Endian) (v : Word64) : (toBytes8 e v).length = 8 := by
  cases e <;> simp [toBytes8]

theorem fromBytes8_toBytes8 (e : Endian) (v : Word64) : fromBytes8 e (toBytes8 e v) = v := by
  have h : fromLe (leBytes 8 v.toNat) = v.toNat := fromLe_leBytes 8 _ v.isLt
  cases e <;> simp [fromBytes8, toBytes8, h]

theorem toBytes8_fromBytes8 (e : Endian) (bs : List Byte) (h : bs.length = 8) : toBytes8 e (fromBytes8 e bs) = bs := by
  have key : ∀ cs : List Byte, cs.length = 8 → leBytes 8 (BitVec.ofNat 64 (fromLe cs)).toNat = cs := by
    intro cs hc
    have hlt := fromLe_lt cs
    rw [hc] at hlt
    have hmod : (BitVec.ofNat 64 (fromLe cs)).toNat = fromLe cs := by
      rw [BitVec.toNat_ofNat]
      exact Nat.mod_eq_of_lt hlt
    rw [hmod, ← hc, leBytes_fromLe]
  cases e with
  | little => exact key bs h
  | big =>
    simp only [toBytes8, fromBytes8]
    rw [key bs.reverse (by simpa using h), List.reverse_reverse]

/-- A read of exactly the bytes at the head of a stream. -/
theorem streamRead_append (a b : List Byte) (n : Nat) (h : a.length = n) : streamRead (a ++ b) n = some (a, b) := by
  subst h
  induction a with
  | nil => cases b <;> rfl
  | cons x a ih => simp only [List.cons_append, List.length_cons, streamRead, ih]

/-- A read finds too few bytes. -/
theorem streamRead_eq_none (s : List Byte) (n : Nat) : streamRead s n = none ↔ s.length < n := by
  constructor
  · intro h
    by_contra hn
    rw [← List.take_append_drop n s, streamRead_append _ _ n (by simp; omega)] at h
    cases h
  · induction n generalizing s with
    | zero => intro h; omega
    | succ n ih =>
      intro h
      cases s with
      | nil => rfl
      | cons x s => simp only [streamRead, ih s (by simpa using h)]

/-- All that a read that succeeds can answer. -/
theorem streamRead_eq_some (s a b : List Byte) (n : Nat) :
    streamRead s n = some (a, b) ↔ s = a ++ b ∧ a.length = n := by
  constructor
  · intro h
    have hn : ¬ s.length < n := by
      rw [← streamRead_eq_none, h]
      simp
    have ht : (s.take n).length = n := by simp; omega
    have hr := streamRead_append (s.take n) (s.drop n) n ht
    rw [List.take_append_drop, h, Option.some.injEq, Prod.mk.injEq] at hr
    obtain ⟨rfl, rfl⟩ := hr
    exact ⟨(List.take_append_drop n s).symm, ht⟩
  · rintro ⟨rfl, h⟩
    exact streamRead_append a b n h

end Sys2Proof.Machine
end

