-- ==== Sys2Proof/Laws/Codec.lean ====
section
/-! SUPPORT. Laws of the trace codec. -/

namespace Sys2Proof

/-- The decoder's reading of a code by its group and select agrees with the table's column of codes (30_encoding.md R46). -/
theorem decodeOpcode_all : ∀ opc : Byte, (decodeOpcode opc).all (fun op => decide (opc = op.code)) = true := by
  decide

theorem decodeOpcode_eq_some (opc : Byte) (op : Opcode) (h : decodeOpcode opc = some op) : opc = op.code := by
  have := decodeOpcode_all opc
  simpa [h] using this

theorem decodeOpcode_code (op : Opcode) : decodeOpcode op.code = some op := by
  cases op <;> decide

/-- A code is reserved exactly where it is none of the eight (30_encoding.md R50). -/
theorem decodeOpcode_eq_none : ∀ opc : Byte,
    decodeOpcode opc = none ↔ opc ∉ [0x00#8, 0x02#8, 0x04#8, 0x05#8, 0x06#8, 0x07#8, 0x08#8, 0x0A#8] := by
  decide

theorem decode_cons (opc : Byte) (rest : List Byte) :
    decode (opc :: rest) =
      match decodeOpcode opc with
      | some op => decodeOperands op rest
      | none => .reserved opc := rfl

/-- The decoder finds no record only in an empty sequence. -/
theorem decodeOperands_ne_ended (op : Opcode) (bs : List Byte) : decodeOperands op bs ≠ .ended := by
  unfold decodeOperands
  cases op <;> dsimp only <;> (try split) <;> (try split) <;> simp

/-- Operand bytes are never a reserved code. -/
theorem decodeOperands_ne_reserved (op : Opcode) (bs : List Byte) (b : Byte) : decodeOperands op bs ≠ .reserved b := by
  unfold decodeOperands
  cases op <;> dsimp only <;> (try split) <;> (try split) <;> simp

theorem encodeTrace_cons (i : Instr) (is : List Instr) : encodeTrace (i :: is) = encode i ++ encodeTrace is := rfl

end Sys2Proof
end

