-- ==== Sys2Proof/Laws/State.lean ====
section
/-! SUPPORT. One lemma for each field of State and each update of it, so that no later proof unfolds a record update. -/

namespace Sys2Proof.Machine

@[simp] theorem State.ok_tr (s : State) (r : OpResult) : (s.ok r).tr = s.tr := rfl
@[simp] theorem State.ok_ctl (s : State) (r : OpResult) : (s.ok r).ctl = s.ctl := rfl
@[simp] theorem State.ok_rem (s : State) (r : OpResult) : (s.ok r).rem = s.rem := rfl
@[simp] theorem State.ok_last (s : State) (r : OpResult) : (s.ok r).last = s.last := rfl
@[simp] theorem State.ok_valid (s : State) (r : OpResult) : (s.ok r).valid = s.valid := rfl
@[simp] theorem State.ok_result (s : State) (r : OpResult) : (s.ok r).result = r := rfl
@[simp] theorem State.ok_trace (s : State) (r : OpResult) : (s.ok r).trace = s.trace := rfl
@[simp] theorem State.ok_draws (s : State) (r : OpResult) : (s.ok r).draws = s.draws := rfl

@[simp] theorem State.advance_tr (s : State) (rest : List Byte) : (s.advance rest).tr = s.tr := rfl
@[simp] theorem State.advance_ctl (s : State) (rest : List Byte) : (s.advance rest).ctl = s.ctl := rfl
@[simp] theorem State.advance_rem (s : State) (rest : List Byte) : (s.advance rest).rem = s.rem := rfl
@[simp] theorem State.advance_last (s : State) (rest : List Byte) : (s.advance rest).last = s.last := rfl
@[simp] theorem State.advance_valid (s : State) (rest : List Byte) : (s.advance rest).valid = s.valid := rfl
@[simp] theorem State.advance_result (s : State) (rest : List Byte) : (s.advance rest).result = s.result := rfl
@[simp] theorem State.advance_trace (s : State) (rest : List Byte) : (s.advance rest).trace = rest := rfl
@[simp] theorem State.advance_draws (s : State) (rest : List Byte) : (s.advance rest).draws = s.draws := rfl

@[simp] theorem State.present_tr (s : State) (bytes : List Byte) : (s.present bytes).tr = s.tr := rfl
@[simp] theorem State.present_ctl (s : State) (bytes : List Byte) : (s.present bytes).ctl = s.ctl := rfl
@[simp] theorem State.present_rem (s : State) (bytes : List Byte) : (s.present bytes).rem = s.rem := rfl
@[simp] theorem State.present_last (s : State) (bytes : List Byte) : (s.present bytes).last = s.last := rfl
@[simp] theorem State.present_valid (s : State) (bytes : List Byte) : (s.present bytes).valid = s.valid := rfl
@[simp] theorem State.present_result (s : State) (bytes : List Byte) : (s.present bytes).result = s.result := rfl
@[simp] theorem State.present_trace (s : State) (bytes : List Byte) : (s.present bytes).trace = bytes ++ s.trace := rfl
@[simp] theorem State.present_draws (s : State) (bytes : List Byte) : (s.present bytes).draws = s.draws := rfl

@[simp] theorem powerOn_tr (s : State) : (powerOn s).tr = Config.trConst := rfl
@[simp] theorem powerOn_ctl (s : State) : (powerOn s).ctl = Config.ctlReset := rfl
@[simp] theorem powerOn_rem (s : State) : (powerOn s).rem = 0#64 := rfl
@[simp] theorem powerOn_last (s : State) : (powerOn s).last = 0#64 := rfl
@[simp] theorem powerOn_valid (s : State) : (powerOn s).valid = true := rfl
@[simp] theorem powerOn_result (s : State) : (powerOn s).result = s.result := rfl
@[simp] theorem powerOn_trace (s : State) : (powerOn s).trace = s.trace := rfl
@[simp] theorem powerOn_draws (s : State) : (powerOn s).draws = s.draws := rfl

@[simp] theorem State.restore_tr (s : State) (x : Snapshot) : (s.restore x).tr = x.tr := rfl
@[simp] theorem State.restore_ctl (s : State) (x : Snapshot) : (s.restore x).ctl = x.ctl := rfl
@[simp] theorem State.restore_rem (s : State) (x : Snapshot) : (s.restore x).rem = x.rem := rfl
@[simp] theorem State.restore_last (s : State) (x : Snapshot) : (s.restore x).last = x.last := rfl
@[simp] theorem State.restore_valid (s : State) (x : Snapshot) : (s.restore x).valid = true := rfl
@[simp] theorem State.restore_result (s : State) (x : Snapshot) : (s.restore x).result = s.result := rfl
@[simp] theorem State.restore_trace (s : State) (x : Snapshot) : (s.restore x).trace = s.trace := rfl
@[simp] theorem State.restore_draws (s : State) (x : Snapshot) : (s.restore x).draws = s.draws := rfl

@[simp] theorem raiseInterrupt_tr (now : Word64) (s : State) : (raiseInterrupt now s).tr = s.tr := rfl
@[simp] theorem raiseInterrupt_ctl (now : Word64) (s : State) : (raiseInterrupt now s).ctl = clearAct s.ctl := rfl
@[simp] theorem raiseInterrupt_rem (now : Word64) (s : State) : (raiseInterrupt now s).rem = BitVec.ofNat 64 Config.tXfer := rfl
@[simp] theorem raiseInterrupt_last (now : Word64) (s : State) : (raiseInterrupt now s).last = now := rfl
@[simp] theorem raiseInterrupt_valid (now : Word64) (s : State) : (raiseInterrupt now s).valid = s.valid := rfl
@[simp] theorem raiseInterrupt_result (now : Word64) (s : State) : (raiseInterrupt now s).result = .irq true := rfl
@[simp] theorem raiseInterrupt_trace (now : Word64) (s : State) : (raiseInterrupt now s).trace = s.trace := rfl
@[simp] theorem raiseInterrupt_draws (now : Word64) (s : State) : (raiseInterrupt now s).draws = s.draws := rfl

@[simp] theorem raiseFault_tr (f : Fault) (s : State) : (raiseFault f s).tr = Config.freeTr s.draws := rfl
@[simp] theorem raiseFault_ctl (f : Fault) (s : State) : (raiseFault f s).ctl = Config.freeCtl s.draws := rfl
@[simp] theorem raiseFault_rem (f : Fault) (s : State) : (raiseFault f s).rem = Config.freeRem s.draws := rfl
@[simp] theorem raiseFault_last (f : Fault) (s : State) : (raiseFault f s).last = Config.freeLast s.draws := rfl
@[simp] theorem raiseFault_valid (f : Fault) (s : State) : (raiseFault f s).valid = false := rfl
@[simp] theorem raiseFault_result (f : Fault) (s : State) : (raiseFault f s).result = .fault f := rfl
@[simp] theorem raiseFault_trace (f : Fault) (s : State) : (raiseFault f s).trace = s.trace := rfl
@[simp] theorem raiseFault_draws (f : Fault) (s : State) : (raiseFault f s).draws = s.draws + 1 := rfl

@[simp] theorem State.snapshot_tr (s : State) : s.snapshot.tr = s.tr := rfl
@[simp] theorem State.snapshot_ctl (s : State) : s.snapshot.ctl = s.ctl := rfl
@[simp] theorem State.snapshot_last (s : State) : s.snapshot.last = s.last := rfl
@[simp] theorem State.snapshot_rem (s : State) : s.snapshot.rem = s.rem := rfl

@[simp] theorem regWrite_tr (v : Byte) (s : State) : regWrite .tr v s = s := rfl

@[simp] theorem regWrite_ctl (v : Byte) (s : State) : regWrite .ctl v s = { s with ctl := v } := rfl

@[simp] theorem regRead_tr (s : State) : regRead .tr s = s.tr := rfl

@[simp] theorem regRead_ctl (s : State) : regRead .ctl s = s.ctl := rfl

end Sys2Proof.Machine
end

