-- ==== Sys2Proof/Laws/Ops.lean ====
section
/-! SUPPORT. One lemma for each shared operation that says once what it can do; the integers of the countdown; the fields of CTL. -/

namespace Sys2Proof.Machine

/-! The validity check. -/

theorem requireValid_of_valid (s : State) (k : State → Out) (h : s.valid = true) : requireValid s k = k s := by
  simp [requireValid, h]

theorem requireValid_of_invalid (s : State) (k : State → Out) (h : s.valid = false) :
    requireValid s k = .refused .invalidUnit := by
  simp [requireValid, h]

/-- An operation that requires a valid unit and answers a next state ran on a valid unit. -/
theorem requireValid_eq_next (s t : State) (k : State → Out) (h : requireValid s k = .next t) :
    s.valid = true ∧ k s = .next t := by
  unfold requireValid at h
  split at h
  · exact ⟨‹_›, h⟩
  · cases h

/-! The fields of CTL. -/

@[simp] theorem act_clearAct (ctl : Byte) : act (clearAct ctl) = false := by
  simp [act, clearAct]

@[simp] theorem lowBits_clearAct (ctl : Byte) : lowBits (clearAct ctl) = lowBits ctl := by
  revert ctl
  decide

/-! The integers of the countdown. -/

theorem sint_eq_toInt (v : Word64) : sint v = v.toInt := rfl

theorem sint_lt (v : Word64) : sint v < 2 ^ 63 := by
  have := BitVec.toInt_lt (x := v)
  simpa [sint] using this

theorem le_sint (v : Word64) : -2 ^ 63 ≤ sint v := by
  have := BitVec.le_toInt (x := v)
  simpa [sint] using this

/-- `tc64(int(v)) = v`. -/
@[simp] theorem tc64_sint (v : Word64) : tc64 (sint v) = v := by
  simp [tc64, sint]

/-- `int(tc64(i)) = i` on the signed 64-bit range. -/
theorem sint_tc64 (i : Int) (lo : -2 ^ 63 ≤ i) (hi : i < 2 ^ 63) : sint (tc64 i) = i := by
  rw [sint, tc64, BitVec.toInt_ofInt]
  exact Int.bmod_eq_of_le (by omega) (by omega)

/-- `s64_of` reads a 64-bit image as two's complement does. -/
theorem s64Of_eq_sint (u : Word64) : s64Of u = sint u := by
  simp only [s64Of, sint, BitVec.toInt_eq_toNat_cond]
  split <;> split <;> omega

/-- `tc64(s64_of(u)) = u`. -/
@[simp] theorem tc64_s64Of (u : Word64) : tc64 (s64Of u) = u := by
  rw [s64Of_eq_sint, tc64_sint]

theorem isStale_eq_true (now last : Word64) : isStale now last = true ↔ now.toNat ≤ last.toNat := by
  simp [isStale]

theorem isStale_eq_false (now last : Word64) : isStale now last = false ↔ last.toNat < now.toNat := by
  simp [isStale]

theorem elapsed_eq (now last : Word64) : elapsed now last = (now.toNat : Int) - (last.toNat : Int) := rfl

theorem countdown_eq (rem now last : Word64) :
    countdown rem now last = rem.toInt - ((now.toNat : Int) - (last.toNat : Int)) := rfl

/-- A countdown still above zero fits the signed field: it lies between 0 and the old REM. -/
theorem sint_tc64_countdown (rem now last : Word64) (effective : last.toNat < now.toNat) (pos : 0 < countdown rem now last) :
    sint (tc64 (countdown rem now last)) = countdown rem now last := by
  have h := sint_lt rem
  rw [sint_eq_toInt] at h
  rw [countdown_eq] at pos ⊢
  exact sint_tc64 _ (by omega) (by omega)

/-! TICK on a valid unit. -/

/-- All that a TICK can do: the four paths of 40_tick.md R60, guards included. -/
theorem tickState_cases (now : Word64) (s : State) :
    (now.toNat ≤ s.last.toNat ∧ tickState now s = { s with result := .irq false }) ∨
    (s.last.toNat < now.toNat ∧ act s.ctl = false ∧ tickState now s = { s with last := now, result := .irq false }) ∨
    (s.last.toNat < now.toNat ∧ act s.ctl = true ∧ countdown s.rem now s.last ≤ 0 ∧ tickState now s = raiseInterrupt now s) ∨
    (s.last.toNat < now.toNat ∧ act s.ctl = true ∧ 0 < countdown s.rem now s.last ∧
      tickState now s = { s with last := now, rem := tc64 (countdown s.rem now s.last), result := .irq false }) := by
  unfold tickState tickTransferring
  by_cases hs : now.toNat ≤ s.last.toNat
  · exact .inl ⟨hs, by simp [isStale, hs, State.ok]⟩
  · by_cases ha : act s.ctl = true
    · by_cases hc : countdown s.rem now s.last ≤ 0
      · exact .inr (.inr (.inl ⟨by omega, ha, hc, by simp [isStale, hs, ha, hc]⟩))
      · exact .inr (.inr (.inr ⟨by omega, ha, by omega, by simp [isStale, hs, ha, hc]⟩))
    · exact .inr (.inl ⟨by omega, by simpa using ha, by simp [isStale, hs, ha]⟩)

theorem tickState_stale (now : Word64) (s : State) (h : now.toNat ≤ s.last.toNat) :
    tickState now s = { s with result := .irq false } := by
  obtain ⟨_, e⟩ | ⟨h', _⟩ | ⟨h', _⟩ | ⟨h', _⟩ := tickState_cases now s <;> first | exact e | omega

theorem tickState_idle (now : Word64) (s : State) (h : s.last.toNat < now.toNat) (idle : act s.ctl = false) :
    tickState now s = { s with last := now, result := .irq false } := by
  simp [tickState, isStale, idle, Nat.not_le.mpr h]

theorem tickState_completing (now : Word64) (s : State) (h : s.last.toNat < now.toNat) (active : act s.ctl = true)
    (done : countdown s.rem now s.last ≤ 0) : tickState now s = raiseInterrupt now s := by
  simp [tickState, tickTransferring, isStale, active, done, Nat.not_le.mpr h]

theorem tickState_counting (now : Word64) (s : State) (h : s.last.toNat < now.toNat) (active : act s.ctl = true)
    (more : 0 < countdown s.rem now s.last) :
    tickState now s = { s with last := now, rem := tc64 (countdown s.rem now s.last), result := .irq false } := by
  simp [tickState, tickTransferring, isStale, active, Int.not_le.mpr more, Nat.not_le.mpr h]

/-! The snapshot record. -/

@[simp] theorem snapshotBytes_length (e : Endian) (x : Snapshot) : (snapshotBytes e x).length = 18 := by
  simp [snapshotBytes]

/-- The four reads of a LOAD on a stream long enough (42_snapshot.md R88). -/
theorem parseSnapshot_full (e : Endian) (a b : Byte) (l r rest : List Byte) (hl : l.length = 8) (hr : r.length = 8) :
    parseSnapshot e ([a, b] ++ l ++ r ++ rest) =
      some ({ tr := a, ctl := b, last := fromBytes8 e l, rem := fromBytes8 e r }, rest) := by
  have h1 : streamRead ([a, b] ++ l ++ r ++ rest) 1 = some ([a], [b] ++ l ++ r ++ rest) :=
    streamRead_append [a] _ 1 rfl
  have h2 : streamRead ([b] ++ l ++ r ++ rest) 1 = some ([b], l ++ (r ++ rest)) := by
    rw [List.append_assoc, List.append_assoc]
    exact streamRead_append [b] _ 1 rfl
  have h3 := streamRead_append l (r ++ rest) 8 hl
  have h4 := streamRead_append r rest 8 hr
  simp only [parseSnapshot, h1, h2, h3, h4, List.headD_cons, tc64_s64Of]

/-- A stream of 18 bytes or more is a TR, a CTL, 8 bytes, 8 bytes and a rest. -/
theorem stream_split (s : List Byte) (h : 18 ≤ s.length) :
    ∃ a b l r rest, s = [a, b] ++ l ++ r ++ rest ∧ l.length = 8 ∧ r.length = 8 := by
  obtain _ | ⟨a, _ | ⟨b, s⟩⟩ := s
  · simp at h
  · simp at h
  · simp only [List.length_cons] at h
    refine ⟨a, b, s.take 8, (s.drop 8).take 8, s.drop 16, ?_, by simp; omega, by simp; omega⟩
    have h1 : s = s.take 8 ++ s.drop 8 := (List.take_append_drop 8 s).symm
    have h2 : s.drop 8 = (s.drop 8).take 8 ++ s.drop 16 := by
      conv => lhs; rw [← List.take_append_drop 8 (s.drop 8)]
      simp
    simp only [List.cons_append, List.nil_append, List.append_assoc, List.cons.injEq, true_and]
    rw [← h2, ← h1]

/-- A LOAD faults exactly on a stream shorter than a record (42_snapshot.md R90). -/
theorem parseSnapshot_eq_none (e : Endian) (s : List Byte) : parseSnapshot e s = none ↔ s.length < 18 := by
  constructor
  · intro h
    by_contra hs
    obtain ⟨a, b, l, r, rest, rfl, hl, hr⟩ := stream_split s (by omega)
    rw [parseSnapshot_full e a b l r rest hl hr] at h
    cases h
  · intro h
    unfold parseSnapshot
    split
    · rfl
    · rename_i a s1 h1
      rw [streamRead_eq_some] at h1
      split
      · rfl
      · rename_i b s2 h2
        rw [streamRead_eq_some] at h2
        split
        · rfl
        · rename_i l s3 h3
          rw [streamRead_eq_some] at h3
          split
          · rfl
          · rename_i r s4 h4
            rw [streamRead_eq_some] at h4
            obtain ⟨rfl, ha⟩ := h1
            obtain ⟨rfl, hb⟩ := h2
            obtain ⟨rfl, hl⟩ := h3
            obtain ⟨rfl, hr⟩ := h4
            simp only [List.length_append] at h
            omega

/-- All that a LOAD's reads can answer where they succeed. -/
theorem parseSnapshot_eq_some (e : Endian) (s rest : List Byte) (x : Snapshot) (h : parseSnapshot e s = some (x, rest)) :
    ∃ l r, s = [x.tr, x.ctl] ++ l ++ r ++ rest ∧ l.length = 8 ∧ r.length = 8 ∧
      x.last = fromBytes8 e l ∧ x.rem = fromBytes8 e r := by
  have hn : ¬ s.length < 18 := by
    rw [← parseSnapshot_eq_none e s, h]
    simp
  obtain ⟨a, b, l, r, rest', rfl, hl, hr⟩ := stream_split s (by omega)
  rw [parseSnapshot_full e a b l r rest' hl hr] at h
  simp only [Option.some.injEq, Prod.mk.injEq] at h
  obtain ⟨rfl, rfl⟩ := h
  exact ⟨l, r, rfl, hl, hr, rfl, rfl⟩

/-- Reading back a record that was written, in either byte order. -/
theorem parseSnapshot_snapshotBytes (e : Endian) (x : Snapshot) (rest : List Byte) :
    parseSnapshot e (snapshotBytes e x ++ rest) = some (x, rest) := by
  have h := parseSnapshot_full e x.tr x.ctl (toBytes8 e x.last) (toBytes8 e x.rem) rest (by simp) (by simp)
  simpa [snapshotBytes, fromBytes8_toBytes8, List.append_assoc] using h

end Sys2Proof.Machine
end

