-- ==== Sys2Proof/Laws/Exec.lean ====
section
/-! SUPPORT. What exec can do, said once: from a next state, which operation it was and which state it left; runs of operations. -/

namespace Sys2Proof.Machine

/-! Each operation over the shared operations it calls. -/

theorem exec_reset_eq (s : State) : exec .reset s = .next ((powerOn s).ok .done) := rfl

theorem exec_tick_eq (now : Word64) (s : State) :
    exec (.tick now) s = requireValid s fun s => .next (tickState now s) := rfl

theorem exec_rdTr_eq (s : State) : exec .rdTr s = requireValid s fun s => .next (s.ok (.byte s.tr)) := rfl

theorem exec_rdCtl_eq (s : State) : exec .rdCtl s = requireValid s fun s => .next (s.ok (.byte s.ctl)) := rfl

theorem exec_wrTr_eq (data : Byte) (s : State) : exec (.wrTr data) s = requireValid s fun s => .next (s.ok .done) := rfl

theorem exec_wrCtl_eq (data : Byte) (s : State) :
    exec (.wrCtl data) s = requireValid s fun s => .next { s with ctl := data, result := .done } := rfl

theorem exec_save_eq (s : State) :
    exec .save s = requireValid s fun s => .next (s.ok (.record (snapshotBytes Config.snapEndian s.snapshot))) := rfl

/-- All that exec can do where it answers a next state, one case for each operation and LOAD's fault apart, guards included. -/
theorem exec_next_cases (i : Instr) (s t : State) (h : exec i s = .next t) :
    (i = .reset ∧ t = (powerOn s).ok .done) ∨
    (∃ now, i = .tick now ∧ s.valid = true ∧ t = tickState now s) ∨
    (i = .rdTr ∧ s.valid = true ∧ t = s.ok (.byte s.tr)) ∨
    (i = .rdCtl ∧ s.valid = true ∧ t = s.ok (.byte s.ctl)) ∨
    (∃ data, i = .wrTr data ∧ s.valid = true ∧ t = s.ok .done) ∨
    (∃ data, i = .wrCtl data ∧ s.valid = true ∧ t = { s with ctl := data, result := .done }) ∨
    (i = .save ∧ s.valid = true ∧ t = s.ok (.record (snapshotBytes Config.snapEndian s.snapshot))) ∨
    (∃ ver stream x rest, i = .load ver stream ∧ parseSnapshot Config.snapEndian stream = some (x, rest) ∧
      t = (s.restore x).ok (.rest rest)) ∨
    (∃ ver stream, i = .load ver stream ∧ stream.length < 18 ∧ t = raiseFault .malformedSnapshot s) := by
  cases i with
  | reset =>
    simp only [exec, execReset, Host.Outcome.next.injEq] at h
    exact .inl ⟨rfl, h.symm⟩
  | tick now =>
    rw [exec_tick_eq] at h
    obtain ⟨hv, ht⟩ := requireValid_eq_next _ _ _ h
    simp only [Host.Outcome.next.injEq] at ht
    exact .inr (.inl ⟨now, rfl, hv, ht.symm⟩)
  | rdTr =>
    rw [exec_rdTr_eq] at h
    obtain ⟨hv, ht⟩ := requireValid_eq_next _ _ _ h
    simp only [Host.Outcome.next.injEq] at ht
    exact .inr (.inr (.inl ⟨rfl, hv, ht.symm⟩))
  | rdCtl =>
    rw [exec_rdCtl_eq] at h
    obtain ⟨hv, ht⟩ := requireValid_eq_next _ _ _ h
    simp only [Host.Outcome.next.injEq] at ht
    exact .inr (.inr (.inr (.inl ⟨rfl, hv, ht.symm⟩)))
  | wrTr data =>
    rw [exec_wrTr_eq] at h
    obtain ⟨hv, ht⟩ := requireValid_eq_next _ _ _ h
    simp only [Host.Outcome.next.injEq] at ht
    exact .inr (.inr (.inr (.inr (.inl ⟨data, rfl, hv, ht.symm⟩))))
  | wrCtl data =>
    rw [exec_wrCtl_eq] at h
    obtain ⟨hv, ht⟩ := requireValid_eq_next _ _ _ h
    simp only [Host.Outcome.next.injEq] at ht
    exact .inr (.inr (.inr (.inr (.inr (.inl ⟨data, rfl, hv, ht.symm⟩)))))
  | save =>
    rw [exec_save_eq] at h
    obtain ⟨hv, ht⟩ := requireValid_eq_next _ _ _ h
    simp only [Host.Outcome.next.injEq] at ht
    exact .inr (.inr (.inr (.inr (.inr (.inr (.inl ⟨rfl, hv, ht.symm⟩))))))
  | load ver stream =>
    simp only [exec, execLoad] at h
    split at h
    · rename_i x rest hx
      simp only [Host.Outcome.next.injEq] at h
      exact .inr (.inr (.inr (.inr (.inr (.inr (.inr (.inl ⟨ver, stream, x, rest, rfl, hx, h.symm⟩)))))))
    · rename_i hx
      simp only [Host.Outcome.next.injEq] at h
      exact .inr (.inr (.inr (.inr (.inr (.inr (.inr (.inr
        ⟨ver, stream, rfl, (parseSnapshot_eq_none _ _).1 hx, h.symm⟩)))))))

/-! Which operations are activations (30_encoding.md R53). -/

@[simp] theorem activates_wrCtl (data : Byte) : (Instr.wrCtl data).activates = act data := rfl

/-- A LOAD is an activation exactly where its record has bit 7 of CTL set. -/
theorem activates_load_of_some (ver : Nat) (stream rest : List Byte) (x : Snapshot)
    (h : parseSnapshot Config.snapEndian stream = some (x, rest)) : (Instr.load ver stream).activates = act x.ctl := by
  simp only [Instr.activates, h]

/-- A LOAD too short to hold a record is none. -/
theorem activates_load_of_none (ver : Nat) (stream : List Byte) (h : parseSnapshot Config.snapEndian stream = none) :
    (Instr.load ver stream).activates = false := by
  simp only [Instr.activates, h]

/-- A run of operations that answers a next state, taken apart at its first operation. -/
theorem runOps_cons_eq_next (i : Instr) (is : List Instr) (s t : State) (h : runOps (i :: is) s = .next t) :
    ∃ u, exec i s = .next u ∧ runOps is u = .next t := by
  simp only [runOps] at h
  cases he : exec i s with
  | next u => rw [he] at h; exact ⟨u, rfl, h⟩
  | fault f => rw [he] at h; cases h
  | refused r => rw [he] at h; cases h

/-- A run of operations whose first operation answers a next state. -/
theorem runOps_cons_of_next (i : Instr) (is : List Instr) (s u : State) (h : exec i s = .next u) :
    runOps (i :: is) s = runOps is u := by
  simp only [runOps, h]

/-- The results of a run whose first operation answers a next state. -/
theorem resultsOf_cons_of_next (i : Instr) (is : List Instr) (s u : State) (h : exec i s = .next u) :
    resultsOf (i :: is) s = u.result :: resultsOf is u := by
  simp only [resultsOf, h]

/-- The interrupts of a run whose first operation answers a next state. -/
theorem irqCount_cons_of_next (i : Instr) (is : List Instr) (s u : State) (h : exec i s = .next u) :
    irqCount (i :: is) s = irqCount is u + if u.result = .irq true then 1 else 0 := by
  simp [irqCount, resultsOf_cons_of_next i is s u h, List.count_cons]

end Sys2Proof.Machine
end

