-- ==== Sys2Proof/Laws/PerInstr.lean ====
section
/-! SUPPORT. Per-operation facts about operations as terms: the length of a record by its format (30_encoding.md R47) and the code that names the operation (R46). -/

namespace Sys2Proof.Laws

/-- The trace record has the length its format gives it (30_encoding.md R47). -/
def RecordLength.Statement (i : Instr) : Prop := (encode i).length = i.recordLength

theorem RecordLength.reset : RecordLength.Statement .reset := rfl

theorem RecordLength.tick (now : Word64) : RecordLength.Statement (.tick now) := by
  simp [RecordLength.Statement, encode, encodeOperands, Instr.recordLength, Instr.opcode, Opcode.format]

theorem RecordLength.rdTr : RecordLength.Statement .rdTr := rfl

theorem RecordLength.rdCtl : RecordLength.Statement .rdCtl := rfl

theorem RecordLength.wrTr (data : Byte) : RecordLength.Statement (.wrTr data) := rfl

theorem RecordLength.wrCtl (data : Byte) : RecordLength.Statement (.wrCtl data) := rfl

theorem RecordLength.save : RecordLength.Statement .save := rfl

theorem RecordLength.load (ver : Nat) (stream : List Byte) : RecordLength.Statement (.load ver stream) := by
  simp only [RecordLength.Statement, encode, encodeOperands, Instr.recordLength, Instr.opcode, Opcode.format, List.length_cons]
  omega

/-- The first byte of the record is a code that the decoder gives to the same operation (30_encoding.md R46). -/
def CodeNamesOperation.Statement (i : Instr) : Prop :=
  ∃ opc operands, encode i = opc :: operands ∧ decodeOpcode opc = some i.opcode

theorem CodeNamesOperation.reset : CodeNamesOperation.Statement .reset := ⟨_, _, rfl, decodeOpcode_code _⟩

theorem CodeNamesOperation.tick (now : Word64) : CodeNamesOperation.Statement (.tick now) :=
  ⟨_, _, rfl, decodeOpcode_code _⟩

theorem CodeNamesOperation.rdTr : CodeNamesOperation.Statement .rdTr := ⟨_, _, rfl, decodeOpcode_code _⟩

theorem CodeNamesOperation.rdCtl : CodeNamesOperation.Statement .rdCtl := ⟨_, _, rfl, decodeOpcode_code _⟩

theorem CodeNamesOperation.wrTr (data : Byte) : CodeNamesOperation.Statement (.wrTr data) :=
  ⟨_, _, rfl, decodeOpcode_code _⟩

theorem CodeNamesOperation.wrCtl (data : Byte) : CodeNamesOperation.Statement (.wrCtl data) :=
  ⟨_, _, rfl, decodeOpcode_code _⟩

theorem CodeNamesOperation.save : CodeNamesOperation.Statement .save := ⟨_, _, rfl, decodeOpcode_code _⟩

theorem CodeNamesOperation.load (ver : Nat) (stream : List Byte) : CodeNamesOperation.Statement (.load ver stream) :=
  ⟨_, _, rfl, decodeOpcode_code _⟩

end Sys2Proof.Laws
end

