-- ==== Sys2Proof/Machine/Text.lean ====
section
/-! DEFINITION. The textual form of a trace line: mnemonic first, operands after, results after an arrow (30_encoding.md R52; DESIGN CHOICE of the spec, D3, log 25). -/

namespace Sys2Proof.Machine

/-- One hexadecimal digit, capital as in the spec's vectors. -/
def hexDigit (n : Nat) : Char := (['0', '1', '2', '3', '4', '5', '6', '7', '8', '9', 'A', 'B', 'C', 'D', 'E', 'F'].getD n '0')

/-- A byte as two hexadecimal digits. -/
def hexByte (b : Byte) : String := String.ofList [hexDigit (b.toNat / 16), hexDigit (b.toNat % 16)]

/-- A byte string in brackets, first byte first (95_test_vectors.md, conventions). -/
def hexBytes (bs : List Byte) : String := "[" ++ String.intercalate " " (bs.map hexByte) ++ "]"

/-- The operands of a trace line, after its mnemonic. -/
def operandText : Instr → String
  | .reset => ""
  | .tick now => " " ++ toString now.toNat
  | .rdTr => ""
  | .rdCtl => ""
  | .wrTr data => " 0x" ++ hexByte data
  | .wrCtl data => " 0x" ++ hexByte data
  | .save => ""
  | .load ver stream => " " ++ toString ver ++ ", " ++ hexBytes stream

/-- The operation's part of a trace line (30_encoding.md R52). -/
def instrText (i : Instr) : String := i.opcode.mnemonic ++ operandText i

/-- The result's part of a trace line; empty where the operation has no result (30_encoding.md R52). -/
def resultText : OpResult → String
  | .done => ""
  | .byte b => " -> 0x" ++ hexByte b
  | .irq b => " -> irq=" ++ (if b then "1" else "0")
  | .record bytes => " -> " ++ hexBytes bytes
  | .rest bytes => " -> ok, rest=" ++ hexBytes bytes
  | .fault .malformedSnapshot => " -> fault MalformedSnapshot"

/-- A whole trace line: the operation and the result it had. -/
def traceLine (i : Instr) (r : OpResult) : String := instrText i ++ resultText r

end Sys2Proof.Machine
end

