-- ==== Sys2Proof/Tests/Slice0.lean ====
section
/-! SUPPORT. The model's own tests, their expected results taken from 95_test_vectors.md, and one witness for the hypotheses of each statement. -/

namespace Sys2Proof.Tests

open Sys2Proof Sys2Proof.Machine

/-- A valid unit (TR, CTL, REM, LAST), as 95_test_vectors.md writes its states. -/
def unit (tr ctl : Byte) (rem : Int) (last : Nat) : State :=
  { State.reset with tr := tr, ctl := ctl, rem := BitVec.ofInt 64 rem, last := BitVec.ofNat 64 last }

/-- An invalid unit. -/
def invalidUnit : State := { State.reset with valid := false }

/-- What a test looks at: the four fields and the result of a next state. -/
structure Seen where
  tr : Byte
  ctl : Byte
  rem : Int
  last : Nat
  result : OpResult
deriving DecidableEq, Repr

/-- The four fields and the result, where the outcome is a next state. -/
def seen (o : Out) : Option Seen :=
  match o with
  | .next s => some ⟨s.tr, s.ctl, s.rem.toInt, s.last.toNat, s.result⟩
  | .fault _ => none
  | .refused _ => none

/-- The reason of a refusal. -/
def refusal (o : Out) : Option Refusal :=
  match o with
  | .next _ => none
  | .fault _ => none
  | .refused r => some r

/-- The record of vector V2: (FF, 81, 76, 900). -/
def recordV2 : List Byte :=
  [0xFF#8, 0x81#8, 0x84#8, 0x03#8, 0#8, 0#8, 0#8, 0#8, 0#8, 0#8, 0x4C#8, 0#8, 0#8, 0#8, 0#8, 0#8, 0#8, 0#8]

/-! ## WellFormed refuses an ill-formed term for each of its checks (30_encoding.md R47, R48) -/

theorem test_ver_too_wide : (Instr.load 256 []).wellFormed = false := by decide

theorem test_stream_too_long : (Instr.load 0 (List.replicate 256 0#8)).wellFormed = false := by
  simp only [Instr.wellFormed, streamFits, List.length_replicate]
  decide

theorem test_longest_load_fits : (Instr.load 255 (List.replicate 255 0#8)).wellFormed = true := by
  simp only [Instr.wellFormed, verFits, streamFits, List.length_replicate]
  decide

/-! ## Decoding: each constructor by a word written from 30_encoding.md R46, R47 (95_test_vectors.md, decoding examples) -/

theorem test_decode_reset : decode [0b00000000#8] = .record .reset [] := by decide

theorem test_decode_tick :
    decode [0b00000010#8, 0xE8#8, 0x03#8, 0#8, 0#8, 0#8, 0#8, 0#8, 0#8] = .record (.tick 1000#64) [] := by decide

/-- The operand is little-endian: the last byte holds bits 63:56. -/
theorem test_decode_tick_byte_order :
    decode [0b00000010#8, 1#8, 2#8, 3#8, 4#8, 5#8, 6#8, 7#8, 8#8] = .record (.tick 0x0807060504030201#64) [] := by decide

theorem test_decode_rdTr : decode [0b00000100#8] = .record .rdTr [] := by decide

theorem test_decode_rdCtl : decode [0b00000101#8] = .record .rdCtl [] := by decide

theorem test_decode_wrTr : decode [0b00000110#8, 0x42#8] = .record (.wrTr 0x42#8) [] := by decide

theorem test_decode_wrCtl : decode [0b00000111#8, 0x81#8, 0x05#8] = .record (.wrCtl 0x81#8) [0x05#8] := by decide

theorem test_decode_save : decode [0b00001000#8] = .record .save [] := by decide

theorem test_decode_load :
    decode [0b00001010#8, 0x03#8, 0x02#8, 0xAB#8, 0xCD#8, 0x08#8] = .record (.load 3 [0xAB#8, 0xCD#8]) [0x08#8] := by decide

/-- Vectors X7 and X8. -/
theorem test_reserved_codes :
    [0x01#8, 0x03#8, 0x09#8, 0x0B#8, 0x0F#8, 0x10#8, 0xFF#8].all (fun b => decide (decode [b, 0#8] = .reserved b)) = true := by
  decide

/-- Vectors X9 and X10. -/
theorem test_truncated_records :
    decode [0x02#8, 0x01#8, 0x00#8] = .truncated .tick ∧ decode [0x0A#8, 0x00#8, 0x12#8, 0xFF#8] = .truncated .load := by
  decide

/-- The opcode table's words, with the bits above them zero. -/
theorem test_table_words :
    decodeTableWord 8 0x00 = some .reset ∧ decodeTableWord 72 0x0000000000000003E802 = some (.tick 1000#64) ∧
    decodeTableWord 8 0x02 = some (.tick 0#64) ∧ decodeTableWord 8 0x04 = some .rdTr ∧ decodeTableWord 8 0x05 = some .rdCtl ∧
    decodeTableWord 16 0x4206 = some (.wrTr 0x42#8) ∧ decodeTableWord 16 0x8107 = some (.wrCtl 0x81#8) ∧
    decodeTableWord 8 0x08 = some .save ∧ decodeTableWord 24 0x00030A = some (.load 3 []) ∧ decodeTableWord 8 0x01 = none := by
  decide

/-- The very next step after reset runs the presented instruction, and nothing else is left to run. -/
theorem test_fetch_word :
    seen (step (State.reset.withFetchWord 16 0x8107)) = some ⟨0xFF#8, 0x81#8, 0, 0, .done⟩ ∧
    (State.reset.withFetchWord 16 0x8107).trace = [0x07#8, 0x81#8] ∧
    refusal (step State.reset) = some .noOperation := by
  decide

/-! ## The operations -/

/-- Vector X1. -/
theorem test_reset : seen (exec .reset (unit 0xFF#8 0x81#8 76 900)) = some ⟨0xFF#8, 0x00#8, 0, 0, .done⟩ := by decide

/-- Vectors T3, T5, T6: stale, one short of completion, the boundary. -/
theorem test_tick_boundaries :
    seen (exec (.tick 99#64) (unit 0xFF#8 0x80#8 976 100)) = some ⟨0xFF#8, 0x80#8, 976, 100, .irq false⟩ ∧
    seen (exec (.tick 975#64) (unit 0xFF#8 0x80#8 976 0)) = some ⟨0xFF#8, 0x80#8, 1, 975, .irq false⟩ ∧
    seen (exec (.tick 976#64) (unit 0xFF#8 0x80#8 976 0)) = some ⟨0xFF#8, 0x00#8, 976, 976, .irq true⟩ := by
  decide

/-- Vectors T9 and T19: bits 6:0 are preserved; the arithmetic is exact, not modular. -/
theorem test_tick_exact :
    seen (exec (.tick 11#64) (unit 0xFF#8 0xFF#8 1 10)) = some ⟨0xFF#8, 0x7F#8, 976, 11, .irq true⟩ ∧
    seen (exec (.tick 0x8000000000000000#64) (unit 0xFF#8 0x80#8 (-2) 0)) =
      some ⟨0xFF#8, 0x00#8, 976, 9223372036854775808, .irq true⟩ := by
  decide

/-- Vector Q11. -/
theorem test_rdTr : seen (exec .rdTr (unit 0xAA#8 0x00#8 0 0)) = some ⟨0xAA#8, 0x00#8, 0, 0, .byte 0xAA#8⟩ := by decide

/-- Vector Q4. -/
theorem test_rdCtl : seen (exec .rdCtl (unit 0xFF#8 0x7E#8 0 0)) = some ⟨0xFF#8, 0x7E#8, 0, 0, .byte 0x7E#8⟩ := by decide

/-- Vector Q9. -/
theorem test_wrTr : seen (exec (.wrTr 0x00#8) (unit 0xFF#8 0x80#8 476 1500)) = some ⟨0xFF#8, 0x80#8, 476, 1500, .done⟩ := by
  decide

/-- Vector Q6. -/
theorem test_wrCtl : seen (exec (.wrCtl 0x81#8) (unit 0xFF#8 0x80#8 476 1500)) = some ⟨0xFF#8, 0x81#8, 476, 1500, .done⟩ := by
  decide

/-- Vector V2. -/
theorem test_save :
    seen (exec .save (unit 0xFF#8 0x81#8 76 900)) = some ⟨0xFF#8, 0x81#8, 76, 900, .record recordV2⟩ := by decide

/-- Vector V5: byte order and two's complement. -/
theorem test_save_byte_order :
    seen (exec .save (unit 0xFF#8 0x80#8 (-9223372036854775808) 0x0102030405060708)) =
      some ⟨0xFF#8, 0x80#8, -9223372036854775808, 0x0102030405060708,
        .record [0xFF#8, 0x80#8, 8#8, 7#8, 6#8, 5#8, 4#8, 3#8, 2#8, 1#8, 0#8, 0#8, 0#8, 0#8, 0#8, 0#8, 0#8, 0x80#8]⟩ := by
  decide

/-- The bytes of V2 in big-endian order (95_test_vectors.md section 2.3). -/
theorem test_big_endian_record :
    snapshotBytes .big { tr := 0xFF#8, ctl := 0x81#8, last := 900#64, rem := 76#64 } =
      [0xFF#8, 0x81#8, 0#8, 0#8, 0#8, 0#8, 0#8, 0#8, 0x03#8, 0x84#8, 0#8, 0#8, 0#8, 0#8, 0#8, 0#8, 0#8, 0x4C#8] := by
  decide

/-- Vectors V7 and V13: `ver` has no effect, the rest is returned, an invalid unit becomes valid. -/
theorem test_load :
    seen (exec (.load 7 (recordV2 ++ [0xAB#8, 0xCD#8])) invalidUnit) =
      some ⟨0xFF#8, 0x81#8, 76, 900, .rest [0xAB#8, 0xCD#8]⟩ := by decide

/-- Vector V11, by its outcome code (60_exceptions.md R103). -/
theorem test_load_short : outcomeCode (exec (.load 0 (recordV2.take 17)) State.reset) = some 1 := by decide

/-- Vectors X4 to X6. -/
theorem test_invalid_unit :
    refusal (exec (.tick 5#64) invalidUnit) = some .invalidUnit ∧ refusal (exec .rdCtl invalidUnit) = some .invalidUnit ∧
      refusal (exec .save invalidUnit) = some .invalidUnit := by
  decide

/-- 30_encoding.md R52. -/
theorem test_text : (traceLine (.tick 1000#64) (.irq true)).toList = "TICK 1000 -> irq=1".toList := by decide

/-! ## Witnesses: for each statement with hypotheses, states and operands that meet them together -/

theorem witness_StaleTickChangesNoField :
    (unit 0xFF#8 0x80#8 (-5) 100).valid = true ∧ (100#64).toNat ≤ (unit 0xFF#8 0x80#8 (-5) 100).last.toNat ∧
      (0#64).toNat ≤ (unit 0xFF#8 0x80#8 (-5) 100).last.toNat := by decide

theorem witness_IdleTickOnlyRecordsTheCount :
    (unit 0xFF#8 0x7F#8 976 7).valid = true ∧ (unit 0xFF#8 0x7F#8 976 7).last.toNat < (8#64).toNat ∧
      (unit 0xFF#8 0x7F#8 976 7).ctl.getLsbD 7 = false := by decide

/-- At the boundary, where the difference is exactly 0. -/
theorem witness_CompletingTickRaisesTheInterrupt :
    let s := unit 0xFF#8 0x81#8 976 0
    s.valid = true ∧ s.last.toNat < (976#64).toNat ∧ s.ctl.getLsbD 7 = true ∧
      s.rem.toInt - (((976#64).toNat : Int) - (s.last.toNat : Int)) ≤ 0 := by decide

/-- At the boundary, where the difference is exactly 1. -/
theorem witness_NonCompletingTickDecrementsTheCountdown :
    let s := unit 0xFF#8 0x81#8 976 0
    s.valid = true ∧ s.last.toNat < (975#64).toNat ∧ s.ctl.getLsbD 7 = true ∧
      0 < s.rem.toInt - (((975#64).toNat : Int) - (s.last.toNat : Int)) := by decide

theorem witness_ElapsedCyclesAreExact : (0#64).toNat < (1#64).toNat ∧ (0#64).toNat < (0xFFFFFFFFFFFFFFFF#64).toNat := by decide

/-- A negative REM, and one still counting. -/
theorem witness_CountdownEqualsItsFixedWidthForm :
    let s := unit 0xFF#8 0x80#8 (-2) 0
    let u := unit 0xFF#8 0x80#8 9223372036854775807 0
    (s.valid = true ∧ s.last.toNat < (0x8000000000000000#64).toNat ∧ s.ctl.getLsbD 7 = true) ∧
      (u.valid = true ∧ u.last.toNat < (1#64).toNat ∧ u.ctl.getLsbD 7 = true) := by decide

theorem witness_TickIsTotalAndReadsOnlyLastActAndRem :
    let s := unit 0xFF#8 0x80#8 976 5
    let s' := unit 0x00#8 0xFF#8 976 5
    s.valid = true ∧ s'.valid = true ∧ s.last = s'.last ∧ s.ctl.getLsbD 7 = s'.ctl.getLsbD 7 ∧ s.rem = s'.rem := by decide

/-- Each row's conditions. -/
theorem witness_StateMachineFollowsItsTransitionTable :
    let idle := unit 0xFF#8 0x00#8 0 0
    let busy := unit 0xFF#8 0x80#8 976 100
    idle.valid = true ∧ idle.phase = .idle ∧ busy.valid = true ∧ busy.phase = .transferring ∧
      (100#64).toNat ≤ busy.last.toNat ∧
      (busy.last.toNat < (1075#64).toNat ∧ ((1075#64).toNat : Int) - (busy.last.toNat : Int) < busy.rem.toInt) ∧
      (busy.last.toNat < (1076#64).toNat ∧ busy.rem.toInt ≤ ((1076#64).toNat : Int) - (busy.last.toNat : Int)) ∧
      (0x80#8).getLsbD 7 = true ∧ (0x7F#8).getLsbD 7 = false ∧
      [Instr.rdTr, Instr.rdCtl, Instr.wrTr 1#8, Instr.save].all (fun i => decide (i.opcode ∈ [Opcode.rdTr, .rdCtl, .wrTr, .save])) = true ∧
      18 ≤ recordV2.length := by decide

theorem witness_OnlyACompletingTickRaisesTheInterrupt :
    ∃ t, exec (.tick 976#64) (unit 0xFF#8 0x80#8 976 0) = .next t ∧ t.result = .irq true :=
  ⟨_, rfl, by decide⟩

/-- The record of an idle unit (TR 0xFF, CTL 0x7F, REM and LAST 0). -/
def idleRecord : List Byte := 0xFF#8 :: 0x7F#8 :: List.replicate 16 0#8

/-- With a LOAD of a record whose bit 7 is clear and a LOAD too short to hold a record. -/
theorem witness_AtMostOneCompletionPerActivation :
    (∀ i ∈ [Instr.tick 5000#64, .rdCtl, .wrCtl 0x01#8, .reset, .save, .wrTr 0#8, .load 0 idleRecord, .load 0 [0xFF#8, 0x80#8]],
        i.activates = false) ∧
      (unit 0xFF#8 0x01#8 0 0).ctl.getLsbD 7 = false ∧ invalidUnit.valid = false ∧ (0x7F#8).getLsbD 7 = false ∧
      ∃ t, exec (.tick 976#64) (unit 0xFF#8 0x80#8 976 0) = .next t ∧ t.result = .irq true :=
  ⟨by decide, by decide, by decide, by decide, _, rfl, by decide⟩

/-- The sequence 5975, 5976 of 95_test_vectors.md S2, which crosses the threshold. -/
theorem witness_FullTransferCompletesAtTheFirstTickPast976 :
    let s := unit 0xFF#8 0x80#8 976 5000
    s.valid = true ∧ s.ctl.getLsbD 7 = true ∧ s.rem.toInt = 976 ∧
      List.Pairwise (fun a b : Word64 => a.toNat < b.toNat) (s.last :: [5975#64, 5976#64]) ∧
      ∃ n ∈ [5975#64, 5976#64], s.last.toNat + 976 ≤ n.toNat :=
  ⟨by decide, by decide, by decide, by decide, 5976#64, by decide, by decide⟩

theorem witness_SpacingOfTicksDoesNotMatter :
    let s := unit 0xFF#8 0x80#8 976 0
    s.valid = true ∧ (∀ n ∈ [1#64, 900#64, 2#64], n.toNat ≤ (976#64).toNat) ∧ irqCount (ticks [1#64, 900#64, 2#64]) s = 0 :=
  ⟨by decide, List.forall_mem_cons.2 ⟨by decide, List.forall_mem_cons.2 ⟨by decide, List.forall_mem_cons.2 ⟨by decide, by simp⟩⟩⟩,
    by decide⟩

theorem witness_ActivationAfterCompletionCountsAFullTransfer :
    (∃ t, exec (.tick 976#64) (unit 0xFF#8 0x80#8 976 0) = .next t ∧ t.result = .irq true) ∧
      (0x80#8).getLsbD 7 = true ∧ (976#64).toNat < (1952#64).toNat :=
  ⟨⟨_, rfl, by decide⟩, by decide, by decide⟩

/-- The hypothesis of every statement that asks for a valid unit only: LastIsTheLargestCountSeen, ReadsHaveNoSideEffect,
ReadsReturnTheStoredByte, WriteOfTrIsDiscarded, RecordHasEachFieldAtItsOffset, SaveAndLoadAreInverse. -/
theorem witness_valid_unit : (unit 0xFF#8 0x81#8 76 900).valid = true := by decide

/-- Both clauses of WriteOfCtlReplacesAllEightBits and of SaveEmitsTheFourFieldsInOrder. -/
theorem witness_valid_and_invalid_units : (unit 0xFF#8 0x81#8 76 900).valid = true ∧ invalidUnit.valid = false := by decide

theorem witness_EachOperationSeesTheOneBefore :
    let s := unit 0xFF#8 0x00#8 976 0
    (s.valid = true ∧ (0x80#8).getLsbD 7 = true ∧ s.last.toNat < (976#64).toNat ∧
      s.rem.toInt ≤ ((976#64).toNat : Int) - (s.last.toNat : Int) ∧
      ((975#64).toNat : Int) - (s.last.toNat : Int) < s.rem.toInt) ∧
    (∃ t, exec (.tick 976#64) (unit 0xFF#8 0x80#8 976 0) = .next t ∧ t.result = .irq true) ∧
    ∃ t, exec (.wrCtl 0x80#8) s = .next t ∧ t.valid = true :=
  ⟨by decide, ⟨_, rfl, by decide⟩, _, rfl, by decide⟩

theorem witness_IdleCountdownIsKeptForTheNextActivation :
    let s := unit 0xFF#8 0x01#8 476 1500
    s.ctl.getLsbD 7 = false ∧ (∀ i ∈ [Instr.tick 2000#64, .rdCtl], i.activates = false ∧ i.startsHistory = false) ∧
      s.valid = true ∧ (0x80#8).getLsbD 7 = true ∧
      ∃ t, runOps [.tick 2000#64, .rdCtl] s = .next t ∧ t.last.toNat < (2476#64).toNat ∧
        s.rem.toInt ≤ ((2476#64).toNat : Int) - (t.last.toNat : Int) ∧ ((2475#64).toNat : Int) - (t.last.toNat : Int) < s.rem.toInt :=
  ⟨by decide, by decide, by decide, by decide, _, rfl, by decide, by decide, by decide⟩

/-- LastIsWrittenOnlyByEffectiveTickResetAndLoad, ActChangesOnlyByCompletionAndByData, OnlyResetAndLoadWriteTr, OnlyAShortLoadFaults: each kind of operation
answers a next state. -/
theorem witness_every_operation_answers_next :
    (∃ t, exec (.tick 901#64) (unit 0xFF#8 0x81#8 76 900) = .next t) ∧ (∃ t, exec .reset invalidUnit = .next t) ∧
    (∃ t, exec .rdTr (unit 0xFF#8 0x81#8 76 900) = .next t) ∧ (∃ t, exec .rdCtl (unit 0xFF#8 0x81#8 76 900) = .next t) ∧
    (∃ t, exec (.wrTr 1#8) (unit 0xFF#8 0x81#8 76 900) = .next t) ∧ (∃ t, exec (.wrCtl 1#8) (unit 0xFF#8 0x81#8 76 900) = .next t) ∧
    (∃ t, exec .save (unit 0xFF#8 0x81#8 76 900) = .next t) ∧
    (∃ t, exec (.load 0 recordV2) invalidUnit = .next t) ∧ 18 ≤ recordV2.length ∧
    (∃ t, exec (.load 0 (recordV2.take 17)) State.reset = .next t) ∧ (recordV2.take 17).length < 18 :=
  ⟨⟨_, rfl⟩, ⟨_, rfl⟩, ⟨_, rfl⟩, ⟨_, rfl⟩, ⟨_, rfl⟩, ⟨_, rfl⟩, ⟨_, rfl⟩, ⟨_, rfl⟩, by decide, ⟨_, rfl⟩, by decide⟩

/-- Units whose CTL differ in bit 0 alone; RD.CTL and SAVE are compared too. -/
theorem witness_ClockSelectHasNoEffect :
    AlikeButClk (unit 0xFF#8 0x80#8 976 0) (unit 0xFF#8 0x81#8 976 0) ∧ (unit 0xFF#8 0x80#8 976 0).valid = true ∧
      (0x80#8 : Byte) &&& 0xFE#8 = (0x81#8 : Byte) &&& 0xFE#8 :=
  ⟨⟨by decide, by decide, by decide⟩, by decide, by decide⟩

theorem witness_GuestCannotReachTheCountdown :
    (∀ i ∈ [Instr.wrTr 1#8, .wrCtl 0x81#8, .rdTr, .rdCtl], i.port.role = .guest) ∧
      ∃ t, runOps [.wrTr 1#8, .wrCtl 0x81#8, .rdTr, .rdCtl] State.reset = .next t :=
  ⟨by decide, _, rfl⟩

theorem witness_ReservedBitsPassThroughUnmodified :
    State.reset.valid = true ∧
      ∀ i ∈ [Instr.tick 5#64, .rdTr, .rdCtl, .wrTr 0#8, .save], i.opcode ∈ [Opcode.tick, .rdTr, .rdCtl, .wrTr, .save] := by
  decide

/-- Both clauses of LoadReplacesAllFourFields; ShortLoadInvalidatesTheUnitUntilResetOrLoad; the second clause of SaveAndLoadAreInverse. -/
theorem witness_stream_lengths :
    ((recordV2.drop 2).take 8).length = 8 ∧ ((recordV2.drop 10).take 8).length = 8 ∧ recordV2.length = 18 ∧
      (recordV2.take 17).length < 18 ∧ (Instr.tick 0#64).opcode ≠ .reset ∧ (Instr.tick 0#64).opcode ≠ .load := by decide

theorem witness_RecordDeterminesTheFourFields :
    ∃ t t', exec .save (unit 0xFF#8 0x81#8 76 900) = .next t ∧
      exec .save { unit 0xFF#8 0x81#8 76 900 with result := .irq true } = .next t' ∧
      t.result = .record recordV2 ∧ t'.result = .record recordV2 :=
  ⟨_, _, rfl, rfl, by decide, by decide⟩

theorem witness_EveryAcceptedOperationCompletes :
    invalidUnit.valid = false ∧ Instr.save.opcode ≠ .reset ∧ Instr.save.opcode ≠ .load := by decide

/-- Each clause of OutcomesHaveTheirNumbers. -/
theorem witness_OutcomesHaveTheirNumbers :
    decode [0x01#8] = .reserved 0x01#8 ∧ decode [0x06#8] = .truncated .wrTr ∧ decode [0x04#8] = .record .rdTr [] ∧
      Instr.rdTr.opcode ≠ .load ∧ Instr.rdTr.opcode ≠ .reset ∧ State.reset.valid = true ∧ invalidUnit.valid = false ∧
      decode [0x0A#8, 0#8, 0#8] = .record (.load 0 []) [] ∧
      decode ([0x0A#8, 0#8, 18#8] ++ recordV2) = .record (.load 0 recordV2) [] := by decide

/-- Both clauses of TransferRegisterIsAllOnesWhereverReachable; CountdownStaysInRangeWhereverReachable; SavesOfReachableStatesAreInContract: a state
after an activation and a TICK is reachable, and so is one restored from its own record. -/
theorem witness_reachable :
    (∃ s, Reachable s ∧ s.result = .irq true) ∧
    (∃ s, Reachable s ∧ s.result = .rest [0xAB#8]) ∧ 17 ≤ (List.replicate 17 0#8).length := by
  refine ⟨?_, ?_, by decide⟩
  · have h1 : exec (.wrCtl 0x80#8) State.reset = .next { State.reset with ctl := 0x80#8, result := .done } := rfl
    have h2 : ∃ t, exec (.tick 1#64) { State.reset with ctl := 0x80#8, result := .done } = .next t ∧ t.result = .irq true :=
      ⟨_, rfl, by decide⟩
    obtain ⟨t, e, r⟩ := h2
    exact ⟨t, .performed _ (.performed _ .atReset (by decide) h1) (by decide) e, r⟩
  · exact ⟨_, .restored 0 _ [0xAB#8] .atReset .atReset rfl rfl rfl, by decide⟩

theorem witness_LastNeverDecreases :
    (∀ i ∈ [Instr.tick 2000#64, .wrCtl 0x80#8, .save], i.startsHistory = false) ∧
      ∃ t, runOps [.tick 2000#64, .wrCtl 0x80#8, .save] (unit 0xFF#8 0x01#8 476 1500) = .next t :=
  ⟨by decide, _, rfl⟩

/-- A unit that keeps the invariant with a TICK to be presented, and the state its step leaves. -/
theorem witness_StepKeepsTheContractInvariant :
    ∃ s s', ContractInv s ∧ step s = .next s' ∧ s.trace = encode (.tick 976#64) := by
  refine ⟨{ unit 0xFF#8 0x80#8 976 0 with trace := encode (.tick 976#64) }, _, ⟨by decide, by decide, ?_⟩, rfl, rfl⟩
  intro n here ver stream rest ha hd
  have h0 : decode (encode (.tick 976#64)) = .record (.tick 976#64) [] := by decide
  match n with
  | 0 =>
    simp only [afterRecords, Option.some.injEq] at ha
    rw [← ha, h0] at hd
    cases hd
  | 1 =>
    simp only [afterRecords, h0, Option.some.injEq] at ha
    rw [← ha] at hd
    cases hd
  | n + 2 =>
    simp only [afterRecords, h0] at ha
    cases ha

theorem witness_FirstTransferAfterResetCompletesAtOnce : (0x80#8).getLsbD 7 = true ∧ 0 < (1#64).toNat := by decide

theorem witness_RewritingActNeverRestoresTheCountdown :
    let s := unit 0xFF#8 0x80#8 976 0
    s.valid = true ∧ s.ctl.getLsbD 7 = true ∧ s.last.toNat < (500#64).toNat ∧
      ((500#64).toNat : Int) - (s.last.toNat : Int) < s.rem.toInt ∧ (500#64).toNat < (976#64).toNat ∧
      (0x00#8).getLsbD 7 = false ∧ (0x81#8).getLsbD 7 = true := by decide

/-- Also with LAST at its maximum, where every TICK is stale (vector T14). -/
theorem witness_WithoutAnEffectiveTickNothingCompletes :
    let s := unit 0xFF#8 0x80#8 976 0xFFFFFFFFFFFFFFFF
    s.valid = true ∧
      (∀ i ∈ [Instr.tick 0xFFFFFFFFFFFFFFFF#64, .wrCtl 0x81#8, .rdCtl],
        i.opcode ∈ [Opcode.tick, .rdTr, .rdCtl, .wrTr, .wrCtl, .save]) ∧
      (0xFFFFFFFFFFFFFFFF#64).toNat ≤ s.last.toNat ∧
      ∀ i ∈ [Instr.load 0 [0xFF#8], .wrCtl 0x80#8, .reset], i.opcode ≠ .tick := by decide

theorem witness_DecodeGivesBackWhatEncodeWrote : (Instr.load 255 (List.replicate 255 0#8)).WF := test_longest_load_fits

theorem witness_EncodeGivesBackWhatDecodeRead :
    decode [0x0A#8, 0xFF#8, 0x01#8, 0xAB#8, 0x00#8] = .record (.load 255 [0xAB#8]) [0x00#8] := by decide

/-- Both directions of EveryOtherCodeIsRefused. -/
theorem witness_EveryOtherCodeIsRefused :
    ({ State.reset with trace := [0x09#8] } : State).trace = 0x09#8 :: [] ∧
      ({ State.reset with trace := [0x08#8] } : State).trace = 0x08#8 :: [] := by decide

theorem witness_CutRecordIsTruncated :
    (Instr.load 0 [0xFF#8]).WF ∧ encode (.load 0 [0xFF#8]) = [0x0A#8, 0x00#8] ++ [0x01#8, 0xFF#8] ∧
      ([0x0A#8, 0x00#8] : List Byte) ≠ [] ∧ ([0x01#8, 0xFF#8] : List Byte) ≠ [] := by decide

/-- Each clause of StepRunsThePresentedOperation. -/
theorem witness_StepRunsThePresentedOperation :
    (Instr.wrCtl 0x81#8).WF ∧ [0x07#8, 0x81#8, 0x05#8] = encode (.wrCtl 0x81#8) ++ [0x05#8] ∧
      decode [0x07#8, 0x81#8, 0x05#8] = .record (.wrCtl 0x81#8) [0x05#8] ∧ decode [0x01#8] = .reserved 0x01#8 ∧
      decode [0x06#8] = .truncated .wrTr ∧ State.reset.trace = [] := by decide

theorem witness_RunOfATraceIsTheRunOfItsOperations : ∀ i ∈ [Instr.reset, .wrCtl 0x81#8, .tick 1#64], i.WF := by decide

/-- An activation of each kind, an operation that is none and leaves the unit Transferring, one that writes no REM. -/
theorem witness_ActivationAndCompletionAreWhatTheSpecNames :
    (Instr.wrCtl 0x80#8).activates = true ∧ (Instr.load 0 recordV2).activates = true ∧
      (∃ t, exec (.load 0 recordV2) invalidUnit = .next t) ∧
      (∃ t, exec .save (unit 0xFF#8 0x81#8 76 900) = .next t ∧ t.valid = true ∧ t.phase = .transferring) ∧
      Instr.save.activates = false ∧ Instr.save.opcode ∉ [Opcode.reset, .tick, .load] :=
  ⟨by decide, by decide, ⟨_, rfl⟩, ⟨_, rfl, by decide, by decide⟩, by decide, by decide⟩

/-- The boundary of a completion, and none on an invalid unit (30_encoding.md R53). -/
theorem test_completes :
    completes 976#64 (unit 0xFF#8 0x80#8 976 0) = true ∧ completes 975#64 (unit 0xFF#8 0x80#8 976 0) = false ∧
      completes 976#64 { unit 0xFF#8 0x80#8 976 0 with valid := false } = false := by decide

end Sys2Proof.Tests
end

section
/-! PROOFS. The state of the unit (10_state.md): rules about single operations and runs that several statements use. -/

namespace Sys2Proof.Machine

/-! TICK on a valid unit, field by field. -/

@[simp] theorem tickState_tr (now : Word64) (s : State) : (tickState now s).tr = s.tr := by
  obtain ⟨_, e⟩ | ⟨_, _, e⟩ | ⟨_, _, _, e⟩ | ⟨_, _, _, e⟩ := tickState_cases now s <;> simp [e]

@[simp] theorem tickState_valid (now : Word64) (s : State) : (tickState now s).valid = s.valid := by
  obtain ⟨_, e⟩ | ⟨_, _, e⟩ | ⟨_, _, _, e⟩ | ⟨_, _, _, e⟩ := tickState_cases now s <;> simp [e]

@[simp] theorem tickState_trace (now : Word64) (s : State) : (tickState now s).trace = s.trace := by
  obtain ⟨_, e⟩ | ⟨_, _, e⟩ | ⟨_, _, _, e⟩ | ⟨_, _, _, e⟩ := tickState_cases now s <;> simp [e]

/-- A TICK leaves LAST at the larger of LAST and `now` (10_state.md R22). -/
theorem tickState_last_toNat (now : Word64) (s : State) :
    (tickState now s).last.toNat = max s.last.toNat now.toNat := by
  obtain ⟨h, e⟩ | ⟨h, _, e⟩ | ⟨h, _, _, e⟩ | ⟨h, _, _, e⟩ := tickState_cases now s <;> simp [e] <;> omega

/-- While ACT = 0 a TICK, stale or not, keeps CTL and REM (40_tick.md R64). -/
theorem tickState_ctl_rem_of_idle (now : Word64) (s : State) (idle : act s.ctl = false) :
    (tickState now s).ctl = s.ctl ∧ (tickState now s).rem = s.rem := by
  obtain stale | effective := le_or_gt now.toNat s.last.toNat
  · simp [tickState_stale now s stale]
  · simp [tickState_idle now s effective idle]

/-! Operations on a valid unit, and the two paths of LOAD. -/

theorem exec_tick_of_valid (now : Word64) (s : State) (h : s.valid = true) :
    exec (.tick now) s = .next (tickState now s) := by
  rw [exec_tick_eq, requireValid_of_valid s _ h]

theorem exec_wrCtl_of_valid (data : Byte) (s : State) (h : s.valid = true) :
    exec (.wrCtl data) s = .next { s with ctl := data, result := .done } := by
  rw [exec_wrCtl_eq, requireValid_of_valid s _ h]

theorem exec_load_of_some (ver : Nat) (stream rest : List Byte) (x : Snapshot) (s : State)
    (h : parseSnapshot Config.snapEndian stream = some (x, rest)) :
    exec (.load ver stream) s = .next ((s.restore x).ok (.rest rest)) := by
  simp only [exec, execLoad, h]

theorem exec_load_of_none (ver : Nat) (stream : List Byte) (s : State)
    (h : parseSnapshot Config.snapEndian stream = none) :
    exec (.load ver stream) s = .next (raiseFault .malformedSnapshot s) := by
  simp only [exec, execLoad, h]

/-- A LOAD of the record that a SAVE of `u` emitted restores the four fields of `u` (42_snapshot.md R92). -/
theorem load_of_saved_record {u v s t : State} {ver : Nat} {record more : List Byte}
    (saved : exec .save u = .next v) (isRecord : v.result = .record record)
    (loaded : exec (.load ver (record ++ more)) s = .next t) :
    u.valid = true ∧ t = (s.restore u.snapshot).ok (.rest more) := by
  rw [exec_save_eq] at saved
  obtain ⟨hu, hv⟩ := requireValid_eq_next _ _ _ saved
  cases hv
  cases isRecord
  rw [exec_load_of_some _ _ _ _ _ (parseSnapshot_snapshotBytes _ u.snapshot more)] at loaded
  cases loaded
  exact ⟨hu, rfl⟩

/-- All that an operation other than RESET and LOAD can do where it answers a next state: it is a TICK, or it writes no field but
CTL, and that only as a WR.CTL does. -/
theorem exec_next_of_continuing {i : Instr} {s t : State} (continuing : i.startsHistory = false) (h : exec i s = .next t) :
    s.valid = true ∧
      ((∃ now, i = .tick now ∧ t = tickState now s) ∨
        ∃ r, t = { s with ctl := i.ctlWritten s.ctl, result := r }) := by
  obtain ⟨rfl, _⟩ | ⟨now, rfl, hv, rfl⟩ | ⟨rfl, hv, rfl⟩ | ⟨rfl, hv, rfl⟩ | ⟨_, rfl, hv, rfl⟩ | ⟨_, rfl, hv, rfl⟩ |
    ⟨rfl, hv, rfl⟩ | ⟨_, _, _, _, rfl, _⟩ | ⟨_, _, rfl, _⟩ := exec_next_cases i s t h
  · cases continuing
  · exact ⟨hv, .inl ⟨now, rfl, rfl⟩⟩
  iterate 5 exact ⟨hv, .inr ⟨_, rfl⟩⟩
  iterate 2 cases continuing

/-- What each of some operations keeps, a run of them keeps. -/
theorem runOps_keeps {P : State → Prop} {allowed : Instr → Prop}
    (step : ∀ i s t, allowed i → P s → exec i s = .next t → P t) :
    ∀ (ops : List Instr) (s t : State), (∀ i ∈ ops, allowed i) → P s → runOps ops s = .next t → P t := by
  intro ops
  induction ops with
  | nil =>
    intro s t _ hs run
    cases run
    exact hs
  | cons i is ih =>
    intro s t hops hs run
    obtain ⟨hi, his⟩ := List.forall_mem_cons.1 hops
    obtain ⟨u, hu, run'⟩ := runOps_cons_eq_next i is s t run
    exact ih u t his (step i s u hi hs hu) run'

end Sys2Proof.Machine
end

section
/-! PROOFS. TR in reachable states (10_state.md R21). -/

namespace Sys2Proof.Machine

/-- No operation but RESET and LOAD writes TR, and RESET writes 0xFF to it (10_state.md R11). -/
theorem exec_tr_of_not_load {i : Instr} {s t : State} (notLoad : i.opcode ≠ .load) (h : exec i s = .next t) :
    t.tr = s.tr ∨ t.tr = Config.trConst := by
  cases hi : i.startsHistory with
  | false =>
    obtain ⟨_, ⟨now, _, rfl⟩ | ⟨_, rfl⟩⟩ := exec_next_of_continuing hi h
    · exact .inl (tickState_tr now s)
    · exact .inl rfl
  | true =>
    cases i with
    | reset => cases h; exact .inr rfl
    | load => exact absurd rfl notLoad
    | _ => cases hi

theorem Reachable.tr_eq {s : State} (h : Reachable s) : s.tr = Config.trConst := by
  induction h with
  | atReset => rfl
  | presented bytes _ ih => exact ih
  | performed i _ notLoad e ih =>
    obtain kept | written := exec_tr_of_not_load notLoad e
    · exact kept.trans ih
    · exact written
  | restored ver record more _ _ saved isRecord e _ ihu =>
    obtain ⟨_, rfl⟩ := load_of_saved_record saved isRecord e
    exact ihu

/-- A LOAD of at least 18 bytes stores byte 0 in TR and checks nothing (42_snapshot.md R88, R91). -/
theorem exec_load_tr (ver : Nat) (a : Byte) (more : List Byte) (s : State) (full : 17 ≤ more.length) :
    ∃ t, exec (.load ver (a :: more)) s = .next t ∧ t.tr = a := by
  cases hp : parseSnapshot Config.snapEndian (a :: more) with
  | none =>
    rw [parseSnapshot_eq_none, List.length_cons] at hp
    omega
  | some p =>
    obtain ⟨x, rest⟩ := p
    obtain ⟨l, r, bytes, _⟩ := parseSnapshot_eq_some _ _ _ _ hp
    exact ⟨_, exec_load_of_some ver _ rest x s hp, (List.cons.inj bytes).1.symm⟩

/-- Settles O38: no operation of a reachable trace writes another value to TR than the one at reset, by induction on how the state was
reached; a foreign LOAD stores the byte it finds. -/
theorem transferRegisterIsAllOnesWhereverReachable : Obligations.TransferRegisterIsAllOnesWhereverReachable :=
  ⟨fun _ h => h.tr_eq, fun s ver a more full => exec_load_tr ver a more s full⟩

end Sys2Proof.Machine
end

section
/-! PROOFS. LAST never decreases (10_state.md R22). -/

namespace Sys2Proof.Machine

theorem exec_last_le {i : Instr} {s t : State} (continuing : i.startsHistory = false) (h : exec i s = .next t) :
    s.last.toNat ≤ t.last.toNat := by
  obtain ⟨_, ⟨now, _, rfl⟩ | ⟨_, rfl⟩⟩ := exec_next_of_continuing continuing h
  · rw [tickState_last_toNat]
    exact Nat.le_max_left _ _
  · exact Nat.le_refl _

/-- Settles O40: each operation leaves LAST at least where it was, and so does a run of them. -/
theorem lastNeverDecreases : Obligations.LastNeverDecreases := by
  intro ops s t continuing run
  refine runOps_keeps (P := fun u => s.last.toNat ≤ u.last.toNat) (fun i u v hi hu e => ?_) ops s t continuing (Nat.le_refl _) run
  exact hu.trans (exec_last_le hi e)

end Sys2Proof.Machine
end

section
/-! PROOFS. The countdown of an idle unit (10_state.md R16). -/

namespace Sys2Proof.Machine

/-- A valid idle unit whose REM is `rem`. -/
structure IdleWith (rem : Word64) (s : State) : Prop where
  valid : s.valid = true
  idle : act s.ctl = false
  countdown : s.rem = rem

/-- The unit leaves Idle, and REM its value, only by an activation, RESET or LOAD (10_state.md R13, R16). -/
theorem exec_keeps_idleWith {rem : Word64} (i : Instr) (s t : State)
    (quiet : i.activates = false ∧ i.startsHistory = false) (hs : IdleWith rem s) (h : exec i s = .next t) :
    IdleWith rem t := by
  obtain ⟨valid, idle, countdown⟩ := hs
  obtain ⟨noActivation, continuing⟩ := quiet
  obtain ⟨_, ⟨now, _, rfl⟩ | ⟨_, rfl⟩⟩ := exec_next_of_continuing continuing h
  · obtain ⟨hctl, hrem⟩ := tickState_ctl_rem_of_idle now s idle
    exact ⟨by simpa using valid, by rwa [hctl], by rwa [hrem]⟩
  · refine ⟨valid, ?_, countdown⟩
    cases i with
    | wrCtl data => exact noActivation
    | _ => exact idle

/-- An effective TICK of a transferring unit completes where REM is at most the cycles elapsed, else takes them off REM
(40_tick.md R66, R67). -/
theorem tickState_transferring (now : Word64) (s : State) (active : act s.ctl = true) (effective : s.last.toNat < now.toNat) :
    (s.rem.toInt ≤ (now.toNat : Int) - (s.last.toNat : Int) → (tickState now s).result = .irq true) ∧
      ((now.toNat : Int) - (s.last.toNat : Int) < s.rem.toInt →
        (tickState now s).result = .irq false ∧
          (tickState now s).rem.toInt = s.rem.toInt - ((now.toNat : Int) - (s.last.toNat : Int))) := by
  have hc := countdown_eq s.rem now s.last
  constructor
  · intro done
    rw [tickState_completing now s effective active (by omega), raiseInterrupt_result]
  · intro more
    have pos : 0 < countdown s.rem now s.last := by omega
    rw [tickState_counting now s effective active pos]
    exact ⟨rfl, (sint_tc64_countdown s.rem now s.last effective pos).trans hc⟩

/-- Settles O22: a valid idle unit with a given REM stays one under the operations named; WR.CTL writes CTL alone, and the TICK counts
down from that REM. -/
theorem idleCountdownIsKeptForTheNextActivation : Obligations.IdleCountdownIsKeptForTheNextActivation := by
  intro ops s t data now idle quiet valid run active effective
  obtain ⟨tvalid, -, trem⟩ : IdleWith s.rem t :=
    runOps_keeps exec_keeps_idleWith ops s t quiet ⟨valid, idle, rfl⟩ run
  have counted := tickState_transferring now { t with ctl := data, result := .done } active effective
  rw [← trem]
  exact ⟨rfl, _, _, exec_wrCtl_of_valid data t tvalid, rfl, exec_tick_of_valid now _ tvalid, counted⟩

end Sys2Proof.Machine
end

section
/-! PROOFS. CLK has no effect on any operation (10_state.md R14). -/

namespace Sys2Proof.Machine

/-- The results of one operation on two units alike but for CLK: the same, but for the stored bit in the byte of an RD.CTL and in byte
1 of the record of a SAVE. -/
def ResultsAlikeButClk (i : Instr) (r r' : OpResult) : Prop :=
  (i.opcode ≠ .rdCtl → i.opcode ≠ .save → r = r') ∧
  (i = .rdCtl → ∃ b b' : Byte, r = .byte b ∧ r' = .byte b' ∧ b &&& 0xFE#8 = b' &&& 0xFE#8) ∧
  (i = .save → ∃ (a b b' : Byte) (more : List Byte), r = .record (a :: b :: more) ∧
    r' = .record (a :: b' :: more) ∧ b &&& 0xFE#8 = b' &&& 0xFE#8)

/-- Two outcomes of one operation that no more than CLK tells apart. -/
def OutcomesAlikeButClk (i : Instr) (o o' : Out) : Prop :=
  (∃ r, o = .refused r ∧ o' = .refused r) ∨
  ∃ t t', o = .next t ∧ o' = .next t' ∧ AlikeButClk t t' ∧ ResultsAlikeButClk i t.result t'.result

theorem ResultsAlikeButClk.of_eq {i : Instr} {r r' : OpResult} (notRdCtl : i ≠ .rdCtl) (notSave : i ≠ .save) (h : r = r') :
    ResultsAlikeButClk i r r' :=
  ⟨fun _ _ => h, fun e => absurd e notRdCtl, fun e => absurd e notSave⟩

/-! Bits 7:1 of CTL are all that an operation reads of it. -/

theorem act_eq_of_alike {c c' : Byte} (h : c &&& 0xFE#8 = c' &&& 0xFE#8) : act c = act c' := by
  simpa [act] using congrArg (fun b : Byte => b.getLsbD 7) h

theorem clearAct_alike {c c' : Byte} (h : c &&& 0xFE#8 = c' &&& 0xFE#8) :
    clearAct c &&& 0xFE#8 = clearAct c' &&& 0xFE#8 := by
  simp only [clearAct, BitVec.and_assoc, BitVec.and_comm 0x7F#8]
  simp only [← BitVec.and_assoc, h]

/-! Updates that keep two units alike. -/

theorem AlikeButClk.ok {s s' : State} (h : AlikeButClk s s') (r r' : OpResult) : AlikeButClk (s.ok r) (s'.ok r') :=
  ⟨h.valid, h.trace, h.fields⟩

theorem AlikeButClk.writeCtl {s s' : State} {d d' : Byte} (h : AlikeButClk s s') (hd : d &&& 0xFE#8 = d' &&& 0xFE#8)
    (r r' : OpResult) : AlikeButClk { s with ctl := d, result := r } { s' with ctl := d', result := r' } := by
  refine ⟨h.valid, h.trace, fun hv => ?_⟩
  obtain ⟨htr, _, hrem, hlast⟩ := h.fields hv
  exact ⟨htr, hd, hrem, hlast⟩

theorem AlikeButClk.powerOn {s s' : State} (h : AlikeButClk s s') : AlikeButClk (powerOn s) (powerOn s') :=
  ⟨rfl, h.trace, fun _ => ⟨rfl, rfl, rfl, rfl⟩⟩

theorem AlikeButClk.restore {s s' : State} (h : AlikeButClk s s') (x : Snapshot) : AlikeButClk (s.restore x) (s'.restore x) :=
  ⟨rfl, h.trace, fun _ => ⟨rfl, rfl, rfl, rfl⟩⟩

theorem AlikeButClk.raiseFault {s s' : State} (h : AlikeButClk s s') (f : Fault) :
    AlikeButClk (raiseFault f s) (raiseFault f s') :=
  ⟨rfl, h.trace, fun hv => nomatch hv⟩

/-- The four paths of a TICK are chosen by LAST, ACT and REM, in which units alike but for CLK agree. -/
theorem AlikeButClk.tickState {s s' : State} (h : AlikeButClk s s') (hv : s.valid = true) (now : Word64) :
    AlikeButClk (tickState now s) (tickState now s') ∧ (tickState now s).result = (tickState now s').result := by
  obtain ⟨htr, hctl, hrem, hlast⟩ := h.fields hv
  have hact := act_eq_of_alike hctl
  obtain ⟨stale, e⟩ | ⟨effective, idle, e⟩ | ⟨effective, active, done, e⟩ | ⟨effective, active, more, e⟩ :=
    tickState_cases now s <;> rw [e]
  · rw [tickState_stale now s' (hlast ▸ stale)]
    exact ⟨h.ok _ _, rfl⟩
  · rw [tickState_idle now s' (hlast ▸ effective) (hact ▸ idle)]
    exact ⟨⟨h.valid, h.trace, fun _ => ⟨htr, hctl, hrem, rfl⟩⟩, rfl⟩
  · rw [tickState_completing now s' (hlast ▸ effective) (hact ▸ active) (hrem ▸ hlast ▸ done)]
    exact ⟨⟨h.valid, h.trace, fun _ => ⟨htr, clearAct_alike hctl, rfl, rfl⟩⟩, rfl⟩
  · rw [tickState_counting now s' (hlast ▸ effective) (hact ▸ active) (hrem ▸ hlast ▸ more)]
    exact ⟨⟨h.valid, h.trace, fun _ => ⟨htr, hctl, by rw [hrem, hlast], rfl⟩⟩, rfl⟩

/-- An operation that requires a valid unit: both units refuse it alike, or both perform it. -/
theorem outcomesAlike_requireValid {i : Instr} {s s' : State} (f : State → State) (h : AlikeButClk s s')
    (performed : s.valid = true → AlikeButClk (f s) (f s') ∧ ResultsAlikeButClk i (f s).result (f s').result) :
    OutcomesAlikeButClk i (requireValid s fun s => .next (f s)) (requireValid s' fun s => .next (f s)) := by
  cases hv : s.valid with
  | false =>
    exact .inl ⟨_, requireValid_of_invalid s _ hv, requireValid_of_invalid s' _ (h.valid ▸ hv)⟩
  | true =>
    exact .inr ⟨_, _, requireValid_of_valid s _ hv, requireValid_of_valid s' _ (h.valid ▸ hv), performed hv⟩

theorem exec_alike (i : Instr) (s s' : State) (h : AlikeButClk s s') : OutcomesAlikeButClk i (exec i s) (exec i s') := by
  cases i with
  | reset => exact .inr ⟨_, _, rfl, rfl, h.powerOn.ok _ _, .of_eq nofun nofun rfl⟩
  | tick now =>
    refine outcomesAlike_requireValid (tickState now) h fun hv => ?_
    obtain ⟨alike, sameResult⟩ := h.tickState hv now
    exact ⟨alike, .of_eq nofun nofun sameResult⟩
  | rdTr =>
    refine outcomesAlike_requireValid (fun s => s.ok (.byte s.tr)) h fun hv => ?_
    obtain ⟨htr, _⟩ := h.fields hv
    exact ⟨h.ok _ _, .of_eq nofun nofun (congrArg OpResult.byte htr)⟩
  | rdCtl =>
    refine outcomesAlike_requireValid (fun s => s.ok (.byte s.ctl)) h fun hv => ?_
    obtain ⟨_, hctl, _⟩ := h.fields hv
    exact ⟨h.ok _ _, fun no => absurd rfl no, fun _ => ⟨_, _, rfl, rfl, hctl⟩, nofun⟩
  | wrTr data => exact outcomesAlike_requireValid (fun s => s.ok .done) h fun _ => ⟨h.ok _ _, .of_eq nofun nofun rfl⟩
  | wrCtl data =>
    exact outcomesAlike_requireValid (fun s => { s with ctl := data, result := .done }) h fun _ =>
      ⟨h.writeCtl rfl _ _, .of_eq nofun nofun rfl⟩
  | save =>
    refine outcomesAlike_requireValid (fun s => s.ok (.record (snapshotBytes Config.snapEndian s.snapshot))) h fun hv => ?_
    obtain ⟨htr, hctl, hrem, hlast⟩ := h.fields hv
    refine ⟨h.ok _ _, fun _ no => absurd rfl no, nofun, fun _ => ⟨s.tr, s.ctl, s'.ctl, _, rfl, ?_, hctl⟩⟩
    simp [snapshotBytes, htr, hrem, hlast]
  | load ver stream =>
    cases hp : parseSnapshot Config.snapEndian stream with
    | none =>
      exact .inr ⟨_, _, exec_load_of_none ver stream s hp, exec_load_of_none ver stream s' hp, h.raiseFault _,
        .of_eq nofun nofun rfl⟩
    | some p =>
      obtain ⟨x, rest⟩ := p
      exact .inr ⟨_, _, exec_load_of_some ver stream rest x s hp, exec_load_of_some ver stream rest x s' hp,
        (h.restore x).ok _ _, .of_eq nofun nofun rfl⟩

/-- Settles O26, operation by operation: what an operation reads of CTL is bit 7, and what it writes or hands out of it keeps bit 0 by
itself. -/
theorem clockSelectHasNoEffect : Obligations.ClockSelectHasNoEffect := by
  refine ⟨exec_alike, fun s s' d d' h hv hd => ?_⟩
  exact ⟨_, _, exec_wrCtl_of_valid d s hv, exec_wrCtl_of_valid d' s' (h.valid ▸ hv), h.writeCtl hd _ _, rfl⟩

end Sys2Proof.Machine
end

section
/-! PROOFS. Reads of the register port (20_memory.md R33). -/

namespace Sys2Proof.Machine

theorem exec_rdTr_of_valid (s : State) (h : s.valid = true) : exec .rdTr s = .next { s with result := .byte s.tr } := by
  rw [exec_rdTr_eq, requireValid_of_valid s _ h, State.ok]

theorem exec_rdCtl_of_valid (s : State) (h : s.valid = true) : exec .rdCtl s = .next { s with result := .byte s.ctl } := by
  rw [exec_rdCtl_eq, requireValid_of_valid s _ h, State.ok]

/-- Settles O17: a read replaces only the result, so the second read finds the unit valid and the register as the first one found
it. -/
theorem readsHaveNoSideEffect : Obligations.ReadsHaveNoSideEffect := by
  rintro i s (rfl | rfl) valid
  · exact ⟨s.tr, exec_rdTr_of_valid s valid, exec_rdTr_of_valid { s with result := .byte s.tr } valid⟩
  · exact ⟨s.ctl, exec_rdCtl_of_valid s valid, exec_rdCtl_of_valid { s with result := .byte s.ctl } valid⟩

end Sys2Proof.Machine
end

section
/-! PROOFS. The paths of TICK (40_tick.md R62 to R67, R73), one statement for each. -/

namespace Sys2Proof.Machine

/-! What completion leaves of CTL, and what every TICK leaves of it. -/

theorem clearAct_getLsbD (ctl : Byte) {k : Nat} (low : k < 7) : (clearAct ctl).getLsbD k = ctl.getLsbD k := by
  have mask : ∀ k < 7, (0x7F#8).getLsbD k = true := by decide
  rw [clearAct, BitVec.getLsbD_and, mask k low, Bool.and_true]

theorem tickState_ctl_getLsbD (now : Word64) (s : State) {k : Nat} (low : k < 7) :
    (tickState now s).ctl.getLsbD k = s.ctl.getLsbD k := by
  obtain ⟨_, e⟩ | ⟨_, _, e⟩ | ⟨_, _, _, e⟩ | ⟨_, _, _, e⟩ := tickState_cases now s <;> simp [e, clearAct_getLsbD _ low]

/-- A TICK hands out the interrupt bit (40_tick.md R60). -/
theorem tickState_result_eq_irq (now : Word64) (s : State) : ∃ irq, (tickState now s).result = .irq irq := by
  obtain ⟨_, e⟩ | ⟨_, _, e⟩ | ⟨_, _, _, e⟩ | ⟨_, _, _, e⟩ := tickState_cases now s <;> simp [e]

/-- LAST, ACT and REM choose the path of a TICK and give every value it writes or hands out, bits 6:0 of CTL apart
(40_tick.md R73). -/
theorem tickState_congr (now : Word64) {s s' : State} (hlast : s.last = s'.last) (hact : act s.ctl = act s'.ctl)
    (hrem : s.rem = s'.rem) :
    (tickState now s).result = (tickState now s').result ∧ (tickState now s).last = (tickState now s').last ∧
      (tickState now s).rem = (tickState now s').rem ∧ act (tickState now s).ctl = act (tickState now s').ctl := by
  obtain ⟨stale, e⟩ | ⟨effective, idle, e⟩ | ⟨effective, active, done, e⟩ | ⟨effective, active, more, e⟩ :=
    tickState_cases now s <;> rw [e]
  · rw [tickState_stale now s' (hlast ▸ stale)]
    exact ⟨rfl, hlast, hrem, hact⟩
  · rw [tickState_idle now s' (hlast ▸ effective) (hact ▸ idle)]
    exact ⟨rfl, rfl, hrem, hact⟩
  · rw [tickState_completing now s' (hlast ▸ effective) (hact ▸ active) (hrem ▸ hlast ▸ done)]
    simp
  · rw [tickState_counting now s' (hlast ▸ effective) (hact ▸ active) (hrem ▸ hlast ▸ more)]
    exact ⟨rfl, rfl, by rw [hrem, hlast], hact⟩

/-- Settles O9: the path and the values written depend on LAST, ACT and REM alone, and no path touches TR or bits 6:0 of CTL. -/
theorem tickIsTotalAndReadsOnlyLastActAndRem : Obligations.TickIsTotalAndReadsOnlyLastActAndRem := by
  intro s s' now valid valid' hlast hact hrem
  obtain ⟨sameResult, sameLast, sameRem, sameAct⟩ := tickState_congr now hlast hact hrem
  obtain ⟨irq, hirq⟩ := tickState_result_eq_irq now s
  exact ⟨_, _, irq, exec_tick_of_valid now s valid, exec_tick_of_valid now s' valid', hirq, sameResult ▸ hirq, sameLast, sameRem,
    sameAct, tickState_tr now s, (tickState_valid now s).trans valid, fun _ low => tickState_ctl_getLsbD now s low⟩

/-- Settles O4: the idle path writes LAST alone. -/
theorem idleTickOnlyRecordsTheCount : Obligations.IdleTickOnlyRecordsTheCount := by
  intro s now valid effective idle
  rw [exec_tick_of_valid now s valid, tickState_idle now s effective idle]

/-- Settles O5: the completing path raises the interrupt, whose write of CTL masks bit 7 alone. -/
theorem completingTickRaisesTheInterrupt : Obligations.CompletingTickRaisesTheInterrupt := by
  intro s now valid effective active done
  refine ⟨clearAct s.ctl, ?_, act_clearAct s.ctl, fun _ low => clearAct_getLsbD s.ctl low⟩
  rw [exec_tick_of_valid now s valid, tickState_completing now s effective active done]
  rfl

/-- Settles O6: the counting path stores the difference, which fits the signed field. -/
theorem nonCompletingTickDecrementsTheCountdown : Obligations.NonCompletingTickDecrementsTheCountdown := by
  intro s now valid effective active more
  refine ⟨tc64 (countdown s.rem now s.last), ?_, sint_tc64_countdown s.rem now s.last effective more⟩
  rw [exec_tick_of_valid now s valid, tickState_counting now s effective active more]

/-- Settles O7: above LAST the 64-bit subtraction does not borrow. -/
theorem elapsedCyclesAreExact : Obligations.ElapsedCyclesAreExact := by
  intro now last effective
  have modular : (now - last).toNat = now.toNat - last.toNat :=
    BitVec.toNat_sub_of_le (BitVec.le_def.2 effective.le)
  have bound := now.isLt
  rw [elapsed_eq, modular]
  omega

end Sys2Proof.Machine
end

section
/-! PROOFS. At most one completion per activation (40_tick.md R68, R72). -/

namespace Sys2Proof.Machine

/-- The completions a unit owes without a further activation: one while it is valid and ACT is set. The fields of an invalid unit
are unspecified, and it completes nothing. -/
def completionsDue (s : State) : Nat := (s.valid && act s.ctl).toNat

theorem completionsDue_le_one (s : State) : completionsDue s ≤ 1 := Bool.toNat_le _

theorem completionsDue_le_act (s : State) : completionsDue s ≤ if act s.ctl then 1 else 0 := by
  cases hv : s.valid <;> cases ha : act s.ctl <;> simp [completionsDue, hv, ha]

theorem completionsDue_eq_zero {s : State} (h : act s.ctl = false ∨ s.valid = false) : completionsDue s = 0 := by
  obtain idle | invalid := h
  · simp [completionsDue, idle]
  · simp [completionsDue, invalid]

/-- A TICK completes only where a completion is due, and none is due after it. -/
theorem completionsDue_tickState_le (now : Word64) (s : State) (valid : s.valid = true) :
    completionsDue (tickState now s) + (if (tickState now s).result = .irq true then 1 else 0) ≤ completionsDue s := by
  obtain ⟨_, e⟩ | ⟨_, _, e⟩ | ⟨_, active, _, e⟩ | ⟨_, _, _, e⟩ := tickState_cases now s
  · simp [e, completionsDue]
  · simp [e, completionsDue]
  · simp [e, completionsDue, valid, active]
  · simp [e, completionsDue]

/-- An activation makes at most one completion due, a completion takes one off, and nothing else makes one due. -/
theorem completionsDue_exec_le {i : Instr} {s t : State} (h : exec i s = .next t) :
    completionsDue t + (if t.result = .irq true then 1 else 0) ≤ completionsDue s + if i.activates then 1 else 0 := by
  obtain ⟨rfl, rfl⟩ | ⟨now, rfl, valid, rfl⟩ | ⟨rfl, _, rfl⟩ | ⟨rfl, _, rfl⟩ | ⟨_, rfl, _, rfl⟩ | ⟨data, rfl, _, rfl⟩ |
    ⟨rfl, _, rfl⟩ | ⟨ver, stream, x, rest, rfl, full, rfl⟩ | ⟨_, _, rfl, _, rfl⟩ := exec_next_cases i s t h
  · simp [completionsDue, Config.ctlReset, act]
  · exact Nat.le_add_right_of_le (completionsDue_tickState_le now s valid)
  iterate 3 simp [completionsDue, Instr.activates]
  · have due : completionsDue { s with ctl := data, result := .done } ≤ if (Instr.wrCtl data).activates then 1 else 0 :=
      completionsDue_le_act _
    simpa using Nat.le_add_left_of_le due
  · simp [completionsDue, Instr.activates]
  · have due := completionsDue_le_act ((s.restore x).ok (.rest rest))
    rw [State.ok_ctl, State.restore_ctl, ← activates_load_of_some ver stream rest x full] at due
    simpa using Nat.le_add_left_of_le due
  · simp [completionsDue]

theorem irqCount_le_activations_add_due : ∀ (ops : List Instr) (s : State),
    irqCount ops s ≤ ops.countP Instr.activates + completionsDue s := by
  intro ops
  induction ops with
  | nil => intro s; exact Nat.zero_le _
  | cons i is ih =>
    intro s
    cases he : exec i s with
    | next u =>
      have pays := completionsDue_exec_le he
      have rest := ih u
      rw [irqCount_cons_of_next i is s u he, List.countP_cons]
      omega
    | fault f => simp [irqCount, resultsOf, he]
    | refused r => simp [irqCount, resultsOf, he]

/-- With no activation among the operations, only what was due before them can complete. -/
theorem irqCount_le_completionsDue {ops : List Instr} (quiet : ∀ i ∈ ops, i.activates = false) (s : State) :
    irqCount ops s ≤ completionsDue s := by
  have noActivation : ops.countP Instr.activates = 0 := List.countP_eq_zero.2 fun i hi => by simp [quiet i hi]
  simpa [noActivation] using irqCount_le_activations_add_due ops s

/-- Settles O12: the completions due bound the completions reported; none is due on an idle or invalid unit, after a completion, or
after a WR.CTL that clears bit 7. -/
theorem atMostOneCompletionPerActivation : Obligations.AtMostOneCompletionPerActivation := by
  refine ⟨fun ops s => (irqCount_le_activations_add_due ops s).trans (Nat.add_le_add_left (completionsDue_le_act s) _),
    fun ops s quiet => ⟨(irqCount_le_completionsDue quiet s).trans (completionsDue_le_one s), fun h => ?_,
      fun now t ticked completed => ?_, fun data clear => ?_⟩⟩
  · exact Nat.le_zero.1 (completionsDue_eq_zero h ▸ irqCount_le_completionsDue quiet s)
  · have pays : completionsDue t + 1 ≤ completionsDue s := by simpa [completed, Instr.activates] using completionsDue_exec_le ticked
    have := completionsDue_le_one s
    have := irqCount_le_completionsDue quiet t
    omega
  · cases valid : s.valid with
    | false => simp [irqCount, resultsOf, exec_wrCtl_eq, requireValid_of_invalid s _ valid]
    | true =>
      have due : completionsDue { s with ctl := data, result := .done } = 0 := completionsDue_eq_zero (.inl clear)
      rw [irqCount_cons_of_next _ _ _ _ (exec_wrCtl_of_valid data s valid)]
      simpa [due] using irqCount_le_completionsDue quiet { s with ctl := data, result := .done }

end Sys2Proof.Machine
end

section
/-! PROOFS. When a transfer completes under TICKs alone (40_tick.md R71). -/

namespace Sys2Proof.Machine

/-! A run of TICKs on a valid unit, taken apart at the first. -/

theorem resultsOf_ticks_cons (now : Word64) (nows : List Word64) {s : State} (valid : s.valid = true) :
    resultsOf (ticks (now :: nows)) s = (tickState now s).result :: resultsOf (ticks nows) (tickState now s) :=
  resultsOf_cons_of_next (.tick now) (ticks nows) s _ (exec_tick_of_valid now s valid)

theorem irqCount_ticks_cons (now : Word64) (nows : List Word64) {s : State} (valid : s.valid = true) :
    irqCount (ticks (now :: nows)) s =
      irqCount (ticks nows) (tickState now s) + if (tickState now s).result = .irq true then 1 else 0 :=
  irqCount_cons_of_next (.tick now) (ticks nows) s _ (exec_tick_of_valid now s valid)

theorem resultsOf_ticks_length (nows : List Word64) : ∀ {s : State}, s.valid = true →
    (resultsOf (ticks nows) s).length = nows.length := by
  induction nows with
  | nil => intro s _; rfl
  | cons now nows ih =>
    intro s valid
    rw [resultsOf_ticks_cons now nows valid, List.length_cons, List.length_cons, ih (by simpa using valid)]

theorem tickState_result_of_idle (now : Word64) (s : State) (idle : act s.ctl = false) :
    (tickState now s).result = .irq false := by
  obtain stale | effective := le_or_gt now.toNat s.last.toNat
  · rw [tickState_stale now s stale]
  · rw [tickState_idle now s effective idle]

/-- An idle unit answers irq = 0 to every TICK. -/
theorem resultsOf_ticks_of_idle (nows : List Word64) : ∀ {s : State}, s.valid = true → act s.ctl = false →
    resultsOf (ticks nows) s = List.replicate nows.length (.irq false) := by
  induction nows with
  | nil => intro s _ _; rfl
  | cons now nows ih =>
    intro s valid idle
    obtain ⟨sameCtl, _⟩ := tickState_ctl_rem_of_idle now s idle
    rw [resultsOf_ticks_cons now nows valid, tickState_result_of_idle now s idle,
      ih (by simpa using valid) (by rwa [sameCtl]), List.length_cons, List.replicate_succ]

theorem irqCount_ticks_of_idle (nows : List Word64) {s : State} (valid : s.valid = true) (idle : act s.ctl = false) :
    irqCount (ticks nows) s = 0 := by
  simp [irqCount, resultsOf_ticks_of_idle nows valid idle, List.count_replicate]

/-- A valid unit counting down towards the count `due`, which LAST + REM keeps through every TICK that does not complete. -/
structure CompletesAt (due : Nat) (s : State) : Prop where
  valid : s.valid = true
  active : act s.ctl = true
  counting : 0 < s.rem.toInt
  sum : (s.last.toNat : Int) + s.rem.toInt = due

/-- A TICK at or past the due count completes and leaves the unit idle. -/
theorem CompletesAt.tickState_of_ge {due : Nat} {now : Word64} {s : State} (h : CompletesAt due s) (reached : due ≤ now.toNat) :
    (tickState now s).result = .irq true ∧ (tickState now s).valid = true ∧ act (tickState now s).ctl = false := by
  obtain ⟨valid, active, counting, sum⟩ := h
  have done : countdown s.rem now s.last ≤ 0 := by
    rw [countdown_eq]
    omega
  rw [tickState_completing now s (by omega) active done]
  exact ⟨rfl, valid, act_clearAct s.ctl⟩

/-- A TICK below the due count, stale or not, completes nothing and leaves the due count where it was. -/
theorem CompletesAt.tickState_of_lt {due : Nat} {now : Word64} {s : State} (h : CompletesAt due s) (before : now.toNat < due) :
    (tickState now s).result = .irq false ∧ CompletesAt due (tickState now s) := by
  obtain ⟨valid, active, counting, sum⟩ := h
  obtain stale | effective := le_or_gt now.toNat s.last.toNat
  · rw [tickState_stale now s stale]
    exact ⟨rfl, valid, active, counting, sum⟩
  · have left := countdown_eq s.rem now s.last
    have more : 0 < countdown s.rem now s.last := by omega
    have stored : (tc64 (countdown s.rem now s.last)).toInt = countdown s.rem now s.last :=
      sint_tc64_countdown s.rem now s.last effective more
    rw [tickState_counting now s effective active more]
    exact ⟨rfl, valid, active, by rwa [stored], by dsimp only; omega⟩

/-- The TICK that raises the interrupt is the first at or past the due count. -/
theorem CompletesAt.resultsOf_ticks_getElem? {due : Nat} (nows : List Word64) : ∀ {s : State}, CompletesAt due s →
    ∀ (k : Nat) (hk : k < nows.length), (resultsOf (ticks nows) s)[k]? =
      some (.irq (decide (due ≤ nows[k].toNat ∧ ∀ n ∈ nows.take k, n.toNat < due))) := by
  induction nows with
  | nil => intro s _ k hk; cases hk
  | cons now nows ih =>
    intro s h k hk
    rw [resultsOf_ticks_cons now nows h.valid]
    obtain before | reached := lt_or_ge now.toNat due
    · obtain ⟨noIrq, h'⟩ := h.tickState_of_lt before
      cases k with
      | zero => simp [noIrq, before]
      | succ k => simpa [before] using ih h' k (Nat.lt_of_succ_lt_succ hk)
    · obtain ⟨irq, valid, idle⟩ := h.tickState_of_ge reached
      rw [irq, resultsOf_ticks_of_idle nows valid idle]
      cases k with
      | zero => simp [reached]
      | succ k => simp [Nat.not_lt.2 reached, Nat.lt_of_succ_lt_succ hk]

theorem CompletesAt.irqCount_ticks {due : Nat} (nows : List Word64) : ∀ {s : State}, CompletesAt due s →
    (∃ n ∈ nows, due ≤ n.toNat) → irqCount (ticks nows) s = 1 := by
  induction nows with
  | nil => rintro s _ ⟨_, hn, _⟩; cases hn
  | cons now nows ih =>
    intro s h crossed
    rw [irqCount_ticks_cons now nows h.valid]
    obtain before | reached := lt_or_ge now.toNat due
    · obtain ⟨noIrq, h'⟩ := h.tickState_of_lt before
      have later : ∃ n ∈ nows, due ≤ n.toNat := by simpa [Nat.not_le.2 before] using crossed
      simp [noIrq, ih h' later]
    · obtain ⟨irq, valid, idle⟩ := h.tickState_of_ge reached
      simp [irq, irqCount_ticks_of_idle nows valid idle]

/-- Settles O13: LAST + REM, here L + 976, is the due count, kept until it is reached; then the unit is idle. TICKs below LAST complete
nothing, so the order of the counts is not needed. -/
theorem fullTransferCompletesAtTheFirstTickPast976 : Obligations.FullTransferCompletesAtTheFirstTickPast976 := by
  intro s nows valid active full _
  have h : CompletesAt (s.last.toNat + 976) s := ⟨valid, active, by omega, by omega⟩
  exact ⟨resultsOf_ticks_length nows valid, h.resultsOf_ticks_getElem? nows, h.irqCount_ticks nows⟩

end Sys2Proof.Machine
end

section
/-! PROOFS. Writes through the register port (41_register_access.md section 2). -/

namespace Sys2Proof.Machine

/-- A WR.CTL on an invalid unit is refused (41_register_access.md R78; 60_exceptions.md R102). -/
theorem exec_wrCtl_of_invalid (data : Byte) (s : State) (h : s.valid = false) :
    exec (.wrCtl data) s = .refused .invalidUnit := by
  rw [exec_wrCtl_eq, requireValid_of_invalid s _ h]

/-- Settles O20: past the validity check WR.CTL writes CTL and the empty result alone. -/
theorem writeOfCtlReplacesAllEightBits : Obligations.WriteOfCtlReplacesAllEightBits :=
  fun s data => ⟨exec_wrCtl_of_valid data s, exec_wrCtl_of_invalid data s⟩

end Sys2Proof.Machine
end

section
/-! PROOFS. SAVE, and the two outcomes of LOAD (42_snapshot.md R85, R88 to R90). -/

namespace Sys2Proof.Machine

theorem exec_save_of_valid (s : State) (h : s.valid = true) :
    exec .save s = .next (s.ok (.record (snapshotBytes Config.snapEndian s.snapshot))) := by
  rw [exec_save_eq, requireValid_of_valid s _ h]

/-- A SAVE on an invalid unit is refused (42_snapshot.md R85; 60_exceptions.md R104). -/
theorem exec_save_of_invalid (s : State) (h : s.valid = false) : exec .save s = .refused .invalidUnit := by
  rw [exec_save_eq, requireValid_of_invalid s _ h]

/-- The signed value that 8 bytes denote has as its image the word that they denote (42_snapshot.md R88: `s64_of(from_le_8(r))`). -/
theorem ofInt_signed_fromLe (r : List Byte) (hr : r.length = 8) :
    BitVec.ofInt 64 (if fromLe r < 2 ^ 63 then (fromLe r : Int) else (fromLe r : Int) - 2 ^ 64) =
      fromBytes8 Config.snapEndian r := by
  have fits : fromLe r < 2 ^ 64 := by simpa [hr] using fromLe_lt r
  have unsigned : (BitVec.ofNat 64 (fromLe r)).toNat = fromLe r := Nat.mod_eq_of_lt fits
  have image : tc64 (s64Of (BitVec.ofNat 64 (fromLe r))) = BitVec.ofNat 64 (fromLe r) := tc64_s64Of _
  rwa [s64Of, unsigned] at image

/-- A LOAD of 18 bytes or more, whatever `ver` is and whatever the unit held (42_snapshot.md R88, R89). -/
theorem exec_load_full (s : State) (ver : Nat) (a b : Byte) (l r rest : List Byte) (hl : l.length = 8) (hr : r.length = 8) :
    exec (.load ver ([a, b] ++ l ++ r ++ rest)) s = .next
      { s with
        tr := a
        ctl := b
        last := fromBytes8 Config.snapEndian l
        rem := fromBytes8 Config.snapEndian r
        valid := true
        result := .rest rest } :=
  exec_load_of_some ver _ rest _ s (parseSnapshot_full Config.snapEndian a b l r rest hl hr)

/-- A LOAD of fewer than 18 bytes (42_snapshot.md R90). -/
theorem exec_load_short (s : State) (ver : Nat) (stream : List Byte) (short : stream.length < 18) :
    exec (.load ver stream) s = .next (raiseFault .malformedSnapshot s) :=
  exec_load_of_none ver stream s ((parseSnapshot_eq_none _ _).2 short)

/-- Settles O31: the four reads split a long enough stream at the fields' widths, and a shorter one takes the fault. -/
theorem loadReplacesAllFourFields : Obligations.LoadReplacesAllFourFields := by
  constructor
  · intro s ver a b l r rest hl hr
    rw [ofInt_signed_fromLe r hr]
    exact exec_load_full s ver a b l r rest hl hr
  · intro s ver stream short
    exact ⟨_, exec_load_short s ver stream short, raiseFault_result _ s⟩

/-- Settles O29: past the validity check SAVE only hands out the record, little-endian. -/
theorem saveEmitsTheFourFieldsInOrder : Obligations.SaveEmitsTheFourFieldsInOrder :=
  fun s => ⟨exec_save_of_valid s, exec_save_of_invalid s⟩

end Sys2Proof.Machine
end

section
/-! PROOFS. The transfer-complete interrupt and the fault (60_exceptions.md R100, R105, R113). -/

namespace Sys2Proof.Machine

/-! Which operation hands out the interrupt bit, and which the fault. -/

theorem exec_tick_eq_next {now : Word64} {s t : State} (h : exec (.tick now) s = .next t) :
    s.valid = true ∧ t = tickState now s := by
  rw [exec_tick_eq] at h
  obtain ⟨valid, ticked⟩ := requireValid_eq_next _ _ _ h
  cases ticked
  exact ⟨valid, rfl⟩

/-- Only a TICK hands out an interrupt bit (60_exceptions.md R106). -/
theorem exec_next_of_irq {i : Instr} {s t : State} {b : Bool} (h : exec i s = .next t) (irq : t.result = .irq b) :
    ∃ now, i = .tick now ∧ s.valid = true ∧ t = tickState now s := by
  obtain ⟨_, rfl⟩ | tick | ⟨_, _, rfl⟩ | ⟨_, _, rfl⟩ | ⟨_, _, _, rfl⟩ | ⟨_, _, _, rfl⟩ | ⟨_, _, rfl⟩ |
    ⟨_, _, _, _, _, _, rfl⟩ | ⟨_, _, _, _, rfl⟩ := exec_next_cases i s t h
  · cases irq
  · exact tick
  iterate 7 cases irq

/-- Only a LOAD of fewer than 18 bytes hands out a fault (60_exceptions.md R100). -/
theorem exec_next_of_fault {i : Instr} {s t : State} {f : Fault} (h : exec i s = .next t) (fault : t.result = .fault f) :
    ∃ ver stream, i = .load ver stream ∧ stream.length < 18 ∧ t = raiseFault .malformedSnapshot s := by
  obtain ⟨_, rfl⟩ | ⟨now, _, _, rfl⟩ | ⟨_, _, rfl⟩ | ⟨_, _, rfl⟩ | ⟨_, _, _, rfl⟩ | ⟨_, _, _, rfl⟩ | ⟨_, _, rfl⟩ |
    ⟨_, _, _, _, _, _, rfl⟩ | shortLoad := exec_next_cases i s t h
  · cases fault
  · obtain ⟨_, irq⟩ := tickState_result_eq_irq now s
    cases irq.symm.trans fault
  iterate 6 cases fault
  · exact shortLoad

/-! The completing TICK. -/

theorem irqPulse_eq_true (s : State) : s.irqPulse = true ↔ s.result = .irq true := decide_eq_true_iff

/-- A TICK hands out 1 on the completing path and 0 on every other (40_tick.md R66; 60_exceptions.md R106). -/
theorem tickState_result (now : Word64) (s : State) :
    (tickState now s).result = .irq (decide (s.last.toNat < now.toNat ∧ act s.ctl = true ∧
      s.rem.toInt ≤ (now.toNat : Int) - (s.last.toNat : Int))) := by
  have left := countdown_eq s.rem now s.last
  obtain ⟨stale, e⟩ | ⟨_, idle, e⟩ | ⟨effective, active, done, e⟩ | ⟨_, _, more, e⟩ := tickState_cases now s <;> rw [e]
  · simp [Nat.not_lt.2 stale]
  · simp [idle]
  · have elapsed : s.rem.toInt ≤ (now.toNat : Int) - (s.last.toNat : Int) := by omega
    simp [effective, active, elapsed]
  · have notElapsed : ¬ s.rem.toInt ≤ (now.toNat : Int) - (s.last.toNat : Int) := by omega
    simp [notElapsed]

theorem tickState_result_eq_irq_true (now : Word64) (s : State) :
    (tickState now s).result = .irq true ↔
      s.last.toNat < now.toNat ∧ act s.ctl = true ∧ s.rem.toInt ≤ (now.toNat : Int) - (s.last.toNat : Int) := by
  rw [tickState_result, OpResult.irq.injEq, decide_eq_true_iff]

/-- A TICK that raised the interrupt left the unit as raising it does (60_exceptions.md R111). -/
theorem tickState_of_irq_true {now : Word64} {s : State} (irq : (tickState now s).result = .irq true) :
    tickState now s = raiseInterrupt now s := by
  obtain ⟨effective, active, elapsed⟩ := (tickState_result_eq_irq_true now s).1 irq
  have left := countdown_eq s.rem now s.last
  exact tickState_completing now s effective active (by omega)

/-- Settles O11: only a TICK hands out an interrupt bit, and it hands out 1 exactly on the completing path. -/
theorem onlyACompletingTickRaisesTheInterrupt : Obligations.OnlyACompletingTickRaisesTheInterrupt := by
  intro i s t h
  rw [irqPulse_eq_true]
  constructor
  · intro irq
    obtain ⟨now, rfl, _, rfl⟩ := exec_next_of_irq h irq
    exact ⟨now, rfl, (tickState_result_eq_irq_true now s).1 irq⟩
  · rintro ⟨now, rfl, completing⟩
    obtain ⟨_, rfl⟩ := exec_tick_eq_next h
    exact (tickState_result_eq_irq_true now s).2 completing

/-- Settles O35: only a short LOAD hands out a fault, and taking it hands out MalformedSnapshot. -/
theorem onlyAShortLoadFaults : Obligations.OnlyAShortLoadFaults := by
  intro i s t h
  refine ⟨⟨?_, ?_⟩, fun f fault => ?_⟩
  · rintro ⟨f, fault⟩
    obtain ⟨ver, stream, rfl, short, _⟩ := exec_next_of_fault h fault
    exact ⟨ver, stream, rfl, short⟩
  · rintro ⟨ver, stream, rfl, short⟩
    rw [exec_load_short s ver stream short] at h
    cases h
    exact ⟨_, raiseFault_result _ s⟩
  · obtain ⟨_, _, _, _, rfl⟩ := exec_next_of_fault h fault
    cases fault
    rfl

/-! Re-arming after a completion (60_exceptions.md R113). -/

theorem raiseInterrupt_phase (now : Word64) (s : State) : (raiseInterrupt now s).phase = .idle := by
  simp [State.phase, phaseOf]

theorem raiseInterrupt_rem_toInt (now : Word64) (s : State) : (raiseInterrupt now s).rem.toInt = 976 := by
  rw [raiseInterrupt_rem]
  decide

/-- Settles O15: completion leaves the unit valid, idle, with REM = 976 and LAST = `now`; WR.CTL writes CTL alone, and the next
TICK compares 976 with the cycles since `now`. -/
theorem activationAfterCompletionCountsAFullTransfer : Obligations.ActivationAfterCompletionCountsAFullTransfer := by
  intro s t now later data ticked irq activating effective
  obtain ⟨valid, rfl⟩ := exec_tick_eq_next ticked
  rw [tickState_of_irq_true irq]
  have armed : act data = true := activating
  refine ⟨raiseInterrupt_phase now s, raiseInterrupt_rem_toInt now s, _, _, exec_wrCtl_of_valid data _ valid,
    by simp [State.phase, phaseOf, armed], exec_tick_of_valid later _ valid, ?_⟩
  rw [tickState_result]
  refine congrArg OpResult.irq (decide_eq_decide.2 ?_)
  rw [raiseInterrupt_rem_toInt, raiseInterrupt_last]
  simp only [effective, armed, true_and]
  omega

end Sys2Proof.Machine
end

section
/-! PROOFS. What an operation answers, whatever it writes: acceptance and refusal, the last result and the trace (60_exceptions.md R102, R104). -/

namespace Sys2Proof.Machine

/-! Acceptance and refusal. -/

theorem startsHistory_eq_false (i : Instr) : i.startsHistory = false ↔ i.opcode ≠ .reset ∧ i.opcode ≠ .load := by
  cases i <;> simp [Instr.startsHistory, Instr.opcode]

/-- Every operation but RESET and LOAD runs on a valid unit, where it always answers a next state, and is refused on an invalid one. -/
theorem exec_continuing_eq {i : Instr} (continuing : i.startsHistory = false) :
    ∃ f : State → State, ∀ s, exec i s = requireValid s fun s => .next (f s) := by
  cases i with
  | reset => cases continuing
  | tick now => exact ⟨_, exec_tick_eq now⟩
  | rdTr => exact ⟨_, exec_rdTr_eq⟩
  | rdCtl => exact ⟨_, exec_rdCtl_eq⟩
  | wrTr data => exact ⟨_, exec_wrTr_eq data⟩
  | wrCtl data => exact ⟨_, exec_wrCtl_eq data⟩
  | save => exact ⟨_, exec_save_eq⟩
  | load => cases continuing

/-- RESET and LOAD are accepted on every unit (70_reset_and_hazards.md R120; 60_exceptions.md R102). -/
theorem exec_of_startsHistory {i : Instr} (starts : i.startsHistory = true) (s : State) : ∃ t, exec i s = .next t := by
  cases i with
  | reset => exact ⟨_, exec_reset_eq s⟩
  | load ver stream =>
    cases hp : parseSnapshot Config.snapEndian stream with
    | none => exact ⟨_, exec_load_of_none ver stream s hp⟩
    | some p => exact ⟨_, exec_load_of_some ver stream p.2 p.1 s hp⟩
  | _ => cases starts

/-- A valid unit accepts every operation. -/
theorem exec_of_valid (i : Instr) {s : State} (valid : s.valid = true) : ∃ t, exec i s = .next t := by
  cases hi : i.startsHistory with
  | true => exact exec_of_startsHistory hi s
  | false =>
    obtain ⟨f, hf⟩ := exec_continuing_eq hi
    exact ⟨f s, by rw [hf, requireValid_of_valid s _ valid]⟩

/-- An invalid unit refuses every operation but RESET and LOAD (60_exceptions.md R104 b). -/
theorem exec_of_invalid {i : Instr} {s : State} (invalid : s.valid = false) (continuing : i.startsHistory = false) :
    exec i s = .refused .invalidUnit := by
  obtain ⟨f, hf⟩ := exec_continuing_eq continuing
  rw [hf, requireValid_of_invalid s _ invalid]

/-- The two ways exec can answer: a next state, or the one refusal it has. -/
theorem exec_cases (i : Instr) (s : State) :
    (∃ t, exec i s = .next t) ∨ (s.valid = false ∧ i.startsHistory = false ∧ exec i s = .refused .invalidUnit) := by
  cases hv : s.valid with
  | true => exact .inl (exec_of_valid i hv)
  | false =>
    cases hi : i.startsHistory with
    | true => exact .inl (exec_of_startsHistory hi s)
    | false => exact .inr ⟨rfl, rfl, exec_of_invalid hv hi⟩

/-- Settles O36: RESET and LOAD check no validity, and every other operation checks nothing else. -/
theorem everyAcceptedOperationCompletes : Obligations.EveryAcceptedOperationCompletes := by
  intro i s
  refine ⟨⟨?_, ?_⟩, fun invalid notReset notLoad => exec_of_invalid invalid ((startsHistory_eq_false i).2 ⟨notReset, notLoad⟩)⟩
  · rintro ⟨t, accepted⟩
    by_contra neither
    obtain ⟨invalid, continuing⟩ : s.valid = false ∧ i.opcode ≠ .reset ∧ i.opcode ≠ .load := by simpa using neither
    cases accepted.symm.trans (exec_of_invalid invalid ((startsHistory_eq_false i).2 continuing))
  · intro accepted
    obtain answer | ⟨invalid, continuing, _⟩ := exec_cases i s
    · exact answer
    · obtain ⟨notReset, notLoad⟩ := (startsHistory_eq_false i).1 continuing
      simp [invalid, notReset, notLoad] at accepted

/-! The last result and the trace: no operation reads either, and none changes the trace. -/

/-- The outcome with another trace in its next state. -/
def withTrace (bytes : List Byte) : Out → Out
  | .next t => .next { t with trace := bytes }
  | .fault f => .fault f
  | .refused r => .refused r

theorem State.with_trace_self {s : State} {bytes : List Byte} (h : s.trace = bytes) : { s with trace := bytes } = s := by
  rw [← h]

theorem tickState_with_result_trace (now : Word64) (s : State) (r : OpResult) (bytes : List Byte) :
    tickState now { s with result := r, trace := bytes } = { tickState now s with trace := bytes } := by
  obtain ⟨stale, e⟩ | ⟨effective, idle, e⟩ | ⟨effective, active, done, e⟩ | ⟨effective, active, more, e⟩ :=
    tickState_cases now s <;> rw [e]
  · exact tickState_stale now _ stale
  · exact tickState_idle now _ effective idle
  · exact tickState_completing now _ effective active done
  · exact tickState_counting now _ effective active more

theorem requireValid_with_result_trace {f : State → State} (s : State) (r : OpResult) (bytes : List Byte)
    (hf : f { s with result := r, trace := bytes } = { f s with trace := bytes }) :
    requireValid { s with result := r, trace := bytes } (fun s => .next (f s)) =
      withTrace bytes (requireValid s fun s => .next (f s)) := by
  obtain valid | invalid := Bool.eq_false_or_eq_true s.valid
  · rw [requireValid_of_valid s _ valid, requireValid_of_valid { s with result := r, trace := bytes } _ valid, hf, withTrace]
  · rw [requireValid_of_invalid s _ invalid, requireValid_of_invalid { s with result := r, trace := bytes } _ invalid, withTrace]

theorem exec_with_result_trace (i : Instr) (s : State) (r : OpResult) (bytes : List Byte) :
    exec i { s with result := r, trace := bytes } = withTrace bytes (exec i s) := by
  cases i with
  | reset => rfl
  | tick now => exact requireValid_with_result_trace s r bytes (tickState_with_result_trace now s r bytes)
  | rdTr => exact requireValid_with_result_trace (f := fun s => s.ok (.byte s.tr)) s r bytes rfl
  | rdCtl => exact requireValid_with_result_trace (f := fun s => s.ok (.byte s.ctl)) s r bytes rfl
  | wrTr data => exact requireValid_with_result_trace (f := fun s => s.ok .done) s r bytes rfl
  | wrCtl data => exact requireValid_with_result_trace (f := fun s => { s with ctl := data, result := .done }) s r bytes rfl
  | save =>
    exact requireValid_with_result_trace (f := fun s => s.ok (.record (snapshotBytes Config.snapEndian s.snapshot))) s r bytes rfl
  | load ver stream =>
    cases hp : parseSnapshot Config.snapEndian stream with
    | none => simp only [exec_load_of_none ver stream _ hp]; rfl
    | some p => simp only [exec_load_of_some ver stream p.2 p.1 _ hp]; rfl

/-- Settles O54, operation by operation: the paths and the values written are chosen by the unit's own fields. -/
theorem noOperationReadsResultOrTrace : Obligations.NoOperationReadsResultOrTrace := by
  intro i s r bytes
  rw [exec_with_result_trace i s r bytes]
  cases exec i s <;> rfl

theorem exec_trace {i : Instr} {s t : State} (h : exec i s = .next t) : t.trace = s.trace := by
  have same := exec_with_result_trace i s s.result s.trace
  rw [h, withTrace] at same
  rw [Host.Outcome.next.inj same]

end Sys2Proof.Machine
end

section
/-! PROOFS. The contract invariant and the countdown's range (10_state.md sections 5 and 6; 42_snapshot.md R93). -/

namespace Sys2Proof.Machine

/-- What a unit that keeps to the contract holds while it is valid (10_state.md R21, R23). -/
def FieldsInContract (s : State) : Prop := s.valid = true → s.tr = Config.trConst ∧ CountdownInRange s.rem

/-- No path of a TICK takes REM out of its range: it stays, is reloaded with 976, or is lowered to a value above 0. -/
theorem tickState_countdownInRange (now : Word64) (s : State) (inRange : CountdownInRange s.rem) :
    CountdownInRange (tickState now s).rem := by
  obtain ⟨_, e⟩ | ⟨_, _, e⟩ | ⟨_, _, _, e⟩ | ⟨effective, _, more, e⟩ := tickState_cases now s <;> rw [e]
  · exact inRange
  · exact inRange
  · rw [raiseInterrupt_rem]
    decide
  · have stored := sint_tc64_countdown s.rem now s.last effective more
    have less : countdown s.rem now s.last ≤ sint s.rem := by
      rw [countdown_eq, sint_eq_toInt]
      omega
    obtain ⟨_, upper⟩ := inRange
    exact ⟨by rw [stored]; exact more.le, by rw [stored]; exact less.trans upper⟩

/-- Every operation keeps the fields in the contract, a LOAD where its record does. -/
theorem exec_keeps_fieldsInContract {i : Instr} {s t : State}
    (loads : ∀ ver stream, i = .load ver stream → LoadKeepsContract stream) (hs : FieldsInContract s)
    (h : exec i s = .next t) : FieldsInContract t := by
  intro valid
  obtain ⟨_, rfl⟩ | ⟨now, _, hv, rfl⟩ | ⟨_, hv, rfl⟩ | ⟨_, hv, rfl⟩ | ⟨_, _, hv, rfl⟩ | ⟨_, _, hv, rfl⟩ | ⟨_, hv, rfl⟩ |
    ⟨ver, stream, x, rest, rfl, read, rfl⟩ | ⟨_, _, _, _, rfl⟩ := exec_next_cases i s t h
  · exact ⟨rfl, by rw [State.ok_rem, powerOn_rem]; decide⟩
  · obtain ⟨tr, inRange⟩ := hs hv
    exact ⟨(tickState_tr now s).trans tr, tickState_countdownInRange now s inRange⟩
  iterate 5 exact hs hv
  · exact loads ver stream rfl x rest read
  · cases valid

/-! Reachable states. -/

theorem exec_valid_of_not_load {i : Instr} {s t : State} (notLoad : i.opcode ≠ .load) (h : exec i s = .next t) :
    t.valid = true := by
  obtain ⟨_, rfl⟩ | ⟨now, _, hv, rfl⟩ | ⟨_, hv, rfl⟩ | ⟨_, hv, rfl⟩ | ⟨_, _, hv, rfl⟩ | ⟨_, _, hv, rfl⟩ | ⟨_, hv, rfl⟩ |
    ⟨_, _, _, _, rfl, _⟩ | ⟨_, _, rfl, _⟩ := exec_next_cases i s t h
  · rfl
  · exact (tickState_valid now s).trans hv
  iterate 5 exact hv
  iterate 2 exact absurd rfl notLoad

theorem Reachable.valid {s : State} (h : Reachable s) : s.valid = true := by
  induction h with
  | atReset => rfl
  | presented bytes _ ih => exact ih
  | performed i _ notLoad e _ => exact exec_valid_of_not_load notLoad e
  | restored ver record more _ _ saved isRecord e _ _ =>
    obtain ⟨_, rfl⟩ := load_of_saved_record saved isRecord e
    rfl

theorem Reachable.fieldsInContract {s : State} (h : Reachable s) : FieldsInContract s := by
  induction h with
  | atReset => exact fun _ => ⟨rfl, by decide⟩
  | presented bytes _ ih => exact ih
  | performed i _ notLoad e ih =>
    exact exec_keeps_fieldsInContract (fun _ _ isLoad => absurd (isLoad ▸ rfl) notLoad) ih e
  | restored ver record more _ _ saved isRecord e _ ihu =>
    obtain ⟨savedValid, rfl⟩ := load_of_saved_record saved isRecord e
    exact fun _ => ihu savedValid

/-- Settles O39: every reachable state is valid and its fields are in the contract, both by induction on how it was reached. -/
theorem countdownStaysInRangeWhereverReachable : Obligations.CountdownStaysInRangeWhereverReachable := by
  intro s reachable
  obtain ⟨_, lower, upper⟩ := reachable.fieldsInContract reachable.valid
  exact ⟨reachable.valid, lower, upper⟩

/-- Settles O41: a reachable state is valid, so SAVE emits its record of 18 bytes, and byte 0 is TR, which is 0xFF. -/
theorem savesOfReachableStatesAreInContract : Obligations.SavesOfReachableStatesAreInContract := by
  intro s reachable
  have tr : (snapshotBytes Config.snapEndian s.snapshot).head? = some s.tr := rfl
  exact ⟨_, _, exec_save_of_valid s reachable.valid, rfl, snapshotBytes_length _ _, reachable.tr_eq ▸ tr⟩

/-! The step. -/

theorem step_of_record {s : State} {i : Instr} {rest : List Byte} (h : decode s.trace = .record i rest) :
    step s = exec i { s with trace := rest } := by
  simp only [step, fetch, h, State.advance]

theorem step_of_reserved {s : State} {opc : Byte} (h : decode s.trace = .reserved opc) :
    step s = .refused .reservedOperation := by
  simp only [step, fetch, h]

theorem step_of_truncated {s : State} {op : Opcode} (h : decode s.trace = .truncated op) :
    step s = .refused .truncatedRecord := by
  simp only [step, fetch, h]

theorem step_of_ended {s : State} (h : decode s.trace = .ended) : step s = .refused .noOperation := by
  simp only [step, fetch, h]

/-- A step that answers a next state performed the operation presented. -/
theorem step_eq_next {s t : State} (h : step s = .next t) :
    ∃ i rest, decode s.trace = .record i rest ∧ exec i { s with trace := rest } = .next t := by
  cases hd : decode s.trace with
  | record i rest => exact ⟨i, rest, rfl, (step_of_record hd).symm.trans h⟩
  | reserved opc => cases (step_of_reserved hd).symm.trans h
  | truncated op => cases (step_of_truncated hd).symm.trans h
  | ended => cases (step_of_ended hd).symm.trans h

/-- What follows a record presents no LOAD that the whole does not. -/
theorem PendingLoadsKeepContract.tail {bytes rest : List Byte} {i : Instr} (h : PendingLoadsKeepContract bytes)
    (hd : decode bytes = .record i rest) : PendingLoadsKeepContract rest := by
  intro n here ver stream more after isLoad
  have later : afterRecords (n + 1) bytes = some here := by simp only [afterRecords, hd, after]
  exact h (n + 1) here ver stream more later isLoad

/-- Settles O42: the empty trace presents no LOAD. -/
theorem resetMeetsTheContractInvariant : Obligations.ResetMeetsTheContractInvariant := by
  refine ⟨fun _ => rfl, fun _ => by decide, ?_⟩
  intro n here ver stream rest after isLoad
  cases n with
  | zero =>
    cases after
    cases isLoad
  | succ n => cases after

/-- Settles O43: the operation performed keeps the fields in the contract, a LOAD because it is the first one pending; no operation
changes the trace that is left. -/
theorem stepKeepsTheContractInvariant : Obligations.StepKeepsTheContractInvariant := by
  rintro s s' ⟨transferRegister, countdownInRange, pending⟩ stepped
  obtain ⟨i, rest, presented, performed⟩ := step_eq_next stepped
  have loads : ∀ ver stream, i = .load ver stream → LoadKeepsContract stream := by
    rintro ver stream rfl
    exact pending 0 s.trace ver stream rest rfl presented
  have fields : FieldsInContract s' := exec_keeps_fieldsInContract (s := { s with trace := rest }) loads
    (fun valid => ⟨transferRegister valid, countdownInRange valid⟩) performed
  refine ⟨fun valid => (fields valid).1, fun valid => (fields valid).2, ?_⟩
  rw [exec_trace performed]
  exact pending.tail presented

end Sys2Proof.Machine
end

section
/-! PROOFS. The trace codec (30_encoding.md sections 3, 5 and 7), and runs over a trace's bytes. -/

namespace Sys2Proof

open Machine

/-! The operands. -/

theorem load_wf_iff (ver : Nat) (stream : List Byte) : (Instr.load ver stream).WF ↔ ver < 256 ∧ stream.length ≤ 255 := by
  simp [Instr.WF, Instr.wellFormed, verFits, streamFits]

theorem decodeOperands_encodeOperands (i : Instr) (rest : List Byte) (wf : i.WF) :
    decodeOperands i.opcode (encodeOperands i ++ rest) = .record i rest := by
  cases i with
  | tick now =>
    have read := streamRead_append (toBytes8 .little now) rest 8 (toBytes8_length _ _)
    simp only [Instr.opcode, encodeOperands, decodeOperands, read, fromBytes8_toBytes8]
  | load ver stream =>
    obtain ⟨verBound, countBound⟩ := (load_wf_iff ver stream).1 wf
    have sameVer : (BitVec.ofNat 8 ver).toNat = ver := Nat.mod_eq_of_lt verBound
    have sameCount : (BitVec.ofNat 8 stream.length).toNat = stream.length := Nat.mod_eq_of_lt (by omega)
    have read := streamRead_append stream rest stream.length rfl
    simp only [Instr.opcode, encodeOperands, decodeOperands, List.cons_append, sameVer, sameCount, read]
  | _ => rfl

/-- All that the operands of a code can decode to: a well-formed operation of that code, whose operand bytes they begin with, or
truncated. -/
theorem decodeOperands_cases (op : Opcode) (bs : List Byte) :
    (∃ i rest, decodeOperands op bs = .record i rest ∧ i.opcode = op ∧ i.WF ∧ bs = encodeOperands i ++ rest) ∨
      decodeOperands op bs = .truncated op := by
  cases op with
  | reset => exact .inl ⟨.reset, bs, rfl, rfl, rfl, rfl⟩
  | tick =>
    cases hr : streamRead bs 8 with
    | none => exact .inr (by simp only [decodeOperands, hr])
    | some p =>
      obtain ⟨now, rest⟩ := p
      obtain ⟨bytes, eight⟩ := (streamRead_eq_some _ _ _ _).1 hr
      refine .inl ⟨.tick (fromBytes8 .little now), rest, by simp only [decodeOperands, hr], rfl, rfl, ?_⟩
      rw [encodeOperands, toBytes8_fromBytes8 _ _ eight, bytes]
  | rdTr => exact .inl ⟨.rdTr, bs, rfl, rfl, rfl, rfl⟩
  | rdCtl => exact .inl ⟨.rdCtl, bs, rfl, rfl, rfl, rfl⟩
  | wrTr =>
    cases bs with
    | nil => exact .inr rfl
    | cons data rest => exact .inl ⟨.wrTr data, rest, rfl, rfl, rfl, rfl⟩
  | wrCtl =>
    cases bs with
    | nil => exact .inr rfl
    | cons data rest => exact .inl ⟨.wrCtl data, rest, rfl, rfl, rfl, rfl⟩
  | save => exact .inl ⟨.save, bs, rfl, rfl, rfl, rfl⟩
  | load =>
    obtain _ | ⟨ver, _ | ⟨n, more⟩⟩ := bs
    · exact .inr rfl
    · exact .inr rfl
    · cases hr : streamRead more n.toNat with
      | none => exact .inr (by simp only [decodeOperands, hr])
      | some p =>
        obtain ⟨stream, rest⟩ := p
        obtain ⟨bytes, count⟩ := (streamRead_eq_some _ _ _ _).1 hr
        have countBound := n.isLt
        refine .inl ⟨.load ver.toNat stream, rest, by simp only [decodeOperands, hr], rfl, ?_, ?_⟩
        · exact (load_wf_iff _ _).2 ⟨ver.isLt, by omega⟩
        · simp [encodeOperands, count, bytes]

/-! The record. -/

theorem decode_encode (i : Instr) (rest : List Byte) (wf : i.WF) : decode (encode i ++ rest) = .record i rest := by
  rw [encode, List.cons_append, decode_cons, decodeOpcode_code]
  exact decodeOperands_encodeOperands i rest wf

/-- All that the decoder can read from bytes with a code at their head: the code's own operation, with the bytes it took being that
operation's record, or the reason why there is none. -/
theorem decode_cases (opc : Byte) (bs : List Byte) :
    (decodeOpcode opc = none ∧ decode (opc :: bs) = .reserved opc) ∨
    (∃ i rest, decodeOpcode opc = some i.opcode ∧ decode (opc :: bs) = .record i rest ∧ i.WF ∧ opc :: bs = encode i ++ rest) ∨
    (∃ op, decodeOpcode opc = some op ∧ decode (opc :: bs) = .truncated op) := by
  cases ho : decodeOpcode opc with
  | none => exact .inl ⟨rfl, by simp only [decode_cons, ho]⟩
  | some op =>
    have operands : decode (opc :: bs) = decodeOperands op bs := by simp only [decode_cons, ho]
    obtain ⟨i, rest, read, rfl, wf, bytes⟩ | truncated := decodeOperands_cases op bs
    · refine .inr (.inl ⟨i, rest, rfl, operands.trans read, wf, ?_⟩)
      rw [encode, ← decodeOpcode_eq_some opc _ ho, bytes, List.cons_append]
    · exact .inr (.inr ⟨op, rfl, operands.trans truncated⟩)

theorem decode_eq_record {bytes rest : List Byte} {i : Instr} (h : decode bytes = .record i rest) :
    i.WF ∧ bytes = encode i ++ rest := by
  cases bytes with
  | nil => cases h
  | cons opc bs =>
    obtain ⟨_, e⟩ | ⟨j, rest', _, e, wf, bytes⟩ | ⟨_, _, e⟩ := decode_cases opc bs
    · cases h.symm.trans e
    · cases h.symm.trans e
      exact ⟨wf, bytes⟩
    · cases h.symm.trans e

/-- Settles O47: the code names the operation, and each operand is read back from the bytes it was written as. -/
theorem decodeGivesBackWhatEncodeWrote : Obligations.DecodeGivesBackWhatEncodeWrote := decode_encode

/-- Settles O48: in the one case where the decoder reads an operation, the bytes it took are that operation's record. -/
theorem encodeGivesBackWhatDecodeRead : Obligations.EncodeGivesBackWhatDecodeRead := fun _ _ _ => decode_eq_record

/-- A front part of a record, cut after its code, is truncated: an operation read from it would be read from the whole record too, with
bytes left over. -/
theorem decode_front {i : Instr} {front back : List Byte} (wf : i.WF) (cut : encode i = front ++ back) (notEmpty : front ≠ [])
    (proper : back ≠ []) : decode front = .truncated i.opcode := by
  cases front with
  | nil => exact absurd rfl notEmpty
  | cons opc bs =>
    have code : decodeOpcode opc = some i.opcode := by
      rw [← (List.cons.inj cut).1]
      exact decodeOpcode_code i.opcode
    obtain ⟨reserved, _⟩ | ⟨j, rest, _, _, wfj, bytes⟩ | ⟨op, named, truncated⟩ := decode_cases opc bs
    · cases code.symm.trans reserved
    · have whole : decode (encode i) = .record j (rest ++ back) := by
        rw [cut, bytes, List.append_assoc]
        exact decode_encode j (rest ++ back) wfj
      have alone : decode (encode i) = .record i [] := by simpa using decode_encode i [] wf
      have leftOver : rest ++ back = [] := (Decoded.record.inj (whole.symm.trans alone)).2
      exact absurd (List.append_eq_nil_iff.1 leftOver).2 proper
    · cases code.symm.trans named
      exact truncated

/-- Settles O50: the decoder finds a cut record truncated, and the step refuses what the decoder finds truncated. -/
theorem cutRecordIsTruncated : Obligations.CutRecordIsTruncated := by
  intro i front back wf cut notEmpty proper
  have truncated := decode_front wf cut notEmpty proper
  exact ⟨truncated, fun s presented => step_of_truncated (presented ▸ truncated)⟩

/-- Settles O49: a code outside the eight is reserved; behind one of the eight stands an operation, which exec never refuses as reserved,
or a truncated record. -/
theorem everyOtherCodeIsRefused : Obligations.EveryOtherCodeIsRefused := by
  intro opc more s presented
  rw [← decodeOpcode_eq_none]
  obtain ⟨reserved, e⟩ | ⟨i, rest, named, e, _⟩ | ⟨op, named, e⟩ := decode_cases opc more <;> rw [← presented] at e
  · simp [reserved, step_of_reserved e]
  · rw [step_of_record e, named]
    obtain ⟨t, answer⟩ | ⟨_, _, refused⟩ := exec_cases i { s with trace := rest }
    · simp [answer]
    · simp [refused]
  · simp [named, step_of_truncated e]

/-- Settles O51: the decoder evaluated on the spec's ten examples. -/
theorem recordsOfTheSpecDecode : Obligations.RecordsOfTheSpecDecode := by
  unfold Obligations.RecordsOfTheSpecDecode
  decide

/-- Settles O52: a step is what the decoder's four answers make of it, and a record encoded decodes. -/
theorem stepRunsThePresentedOperation : Obligations.StepRunsThePresentedOperation := by
  intro s
  refine ⟨fun i rest wf presented => ?_, fun _ _ => step_of_record, fun _ => step_of_reserved, fun _ => step_of_truncated,
    fun empty => step_of_ended (by rw [empty, decode])⟩
  exact step_of_record (presented ▸ decode_encode i rest wf)

/-! Runs over a trace's bytes. -/

theorem core_run_succ_of_next {s t : State} (k : Nat) (h : step s = .next t) : core.run (k + 1) s = core.run k t := by
  have h' : core.step s = .next t := h
  simp only [Host.Core.run, h']

theorem core_run_succ_of_refused {s : State} {r : Refusal} (k : Nat) (h : step s = .refused r) :
    core.run (k + 1) s = .refused r := by
  have h' : core.step s = .refused r := h
  simp only [Host.Core.run, h']

theorem runOps_cons_of_refused (i : Instr) (is : List Instr) {s : State} {r : Refusal} (h : exec i s = .refused r) :
    runOps (i :: is) s = .refused r := by
  simp only [runOps, h]

/-- Settles O53, by induction on the operations: the first step decodes the first record and performs its operation, which reads no trace
and changes none. -/
theorem runOfATraceIsTheRunOfItsOperations : Obligations.RunOfATraceIsTheRunOfItsOperations := by
  intro ops
  induction ops with
  | nil => intro s rest _; rfl
  | cons i is ih =>
    intro s rest wf
    obtain ⟨wfi, wfis⟩ := List.forall_mem_cons.1 wf
    have presented : step { s with trace := encodeTrace (i :: is) ++ rest } =
        exec i { s with trace := encodeTrace is ++ rest } := by
      refine step_of_record (s := { s with trace := encodeTrace (i :: is) ++ rest }) ?_
      rw [encodeTrace_cons, List.append_assoc]
      exact decode_encode i _ wfi
    have untouched := exec_with_result_trace i { s with trace := rest } s.result (encodeTrace is ++ rest)
    obtain ⟨t, answer⟩ | ⟨_, _, refused⟩ := exec_cases i { s with trace := rest }
    · rw [answer] at untouched
      have kept : { t with trace := rest } = t := State.with_trace_self (exec_trace answer)
      have later : core.run is.length { t with trace := encodeTrace is ++ rest } = runOps is t := kept ▸ ih t rest wfis
      exact (core_run_succ_of_next _ (presented.trans untouched)).trans (later.trans (runOps_cons_of_next i is _ t answer).symm)
    · rw [refused] at untouched
      exact (core_run_succ_of_refused _ (presented.trans untouched)).trans (runOps_cons_of_refused i is refused).symm

end Sys2Proof
end

section
/-! PROOFS. The countdown in 64-bit words (40_tick.md section 2), and TICKs in a row (sections 1, 2 and 4). -/

namespace Sys2Proof.Machine

/-- Settles O3: the stale path hands out irq = 0 and writes nothing. -/
theorem staleTickChangesNoField : Obligations.StaleTickChangesNoField := by
  intro s now valid stale
  rw [exec_tick_of_valid now s valid, tickState_stale now s stale]

/-! The countdown without a wide intermediate. -/

/-- Above LAST the 64-bit difference of the counts is the exact one (40_tick.md R62). -/
theorem toNat_now_sub_last {now last : Word64} (effective : last.toNat < now.toNat) :
    ((now - last).toNat : Int) = (now.toNat : Int) - (last.toNat : Int) :=
  (elapsedCyclesAreExact now last effective).2.2.2.symm

/-- REM is negative where bit 63 is set, and else its low 63 bits are its value. -/
theorem countdown_nonpos_iff {rem now last : Word64} (effective : last.toNat < now.toNat) :
    countdown rem now last ≤ 0 ↔ rem.getLsbD 63 = true ∨ (rem.extractLsb' 0 63).toNat ≤ (now - last).toNat := by
  have difference := toNat_now_sub_last effective
  have low : (rem.extractLsb' 0 63).toNat = rem.toNat % 2 ^ 63 := by simp
  have sign : rem.getLsbD 63 = decide (2 ^ 63 ≤ rem.toNat) := by
    rw [← rem.msb_eq_decide, rem.msb_eq_getLsbD_last]
  have bound := rem.isLt
  rw [countdown_eq, ← difference, BitVec.toInt_eq_toNat_cond, low, sign, decide_eq_true_iff]
  split <;> omega

/-- The image of the exact difference is the 64-bit one (40_tick.md section 2). -/
theorem tc64_countdown {rem now last : Word64} (effective : last.toNat < now.toNat) :
    tc64 (countdown rem now last) = rem - (now - last) := by
  apply BitVec.eq_of_toInt_eq
  rw [countdown_eq, ← toNat_now_sub_last effective, tc64, BitVec.toInt_ofInt, BitVec.toInt_sub,
    BitVec.toInt_eq_toNat_bmod (now - last), Int.sub_bmod_bmod]

/-- Settles O8: both guards agree, and on the path that completes nothing both differences do. -/
theorem countdownEqualsItsFixedWidthForm : Obligations.CountdownEqualsItsFixedWidthForm := by
  intro s now valid effective active
  rw [exec_tick_of_valid now s valid]
  by_cases done : countdown s.rem now s.last ≤ 0
  · rw [tickState_completing now s effective active done, if_pos ((countdown_nonpos_iff effective).1 done)]
    rfl
  · rw [tickState_counting now s effective active (by omega), if_neg (mt (countdown_nonpos_iff effective).2 done),
      tc64_countdown effective]

/-! TICKs in a row. -/

/-- A TICK does not read the last result (60_exceptions.md R106). -/
theorem tickState_with_result (now : Word64) (s : State) (r : OpResult) : tickState now { s with result := r } = tickState now s :=
  (tickState_with_result_trace now s r s.trace).trans (State.with_trace_self (tickState_trace now s))

/-- What a TICK that counted down left to be counted at a later one. -/
theorem countdown_of_counted {rem n now last : Word64} (effective : last.toNat < n.toNat) (more : 0 < countdown rem n last) :
    countdown (tc64 (countdown rem n last)) now n = countdown rem now last := by
  rw [countdown_eq, ← sint_eq_toInt, sint_tc64_countdown rem n last effective more, countdown_eq, countdown_eq]
  omega

/-- A TICK that completed nothing leaves no trace in a TICK at a later count: LAST and REM moved by the same amount. -/
theorem tickState_tickState_of_lt {n now : Word64} {s : State} (later : n.toNat < now.toNat)
    (noIrq : (tickState n s).result ≠ .irq true) : tickState now (tickState n s) = tickState now s := by
  obtain ⟨_, e⟩ | ⟨effective, idle, e⟩ | ⟨_, _, _, e⟩ | ⟨effective, active, more, e⟩ := tickState_cases n s
  · rw [e, tickState_with_result]
  · rw [e, tickState_idle now s (by omega) idle, tickState_idle now { s with last := n, result := .irq false } later idle]
  · exact absurd (by rw [e, raiseInterrupt_result]) noIrq
  · have fresh : isStale now n = false := (isStale_eq_false now n).2 later
    have fresh' : isStale now s.last = false := (isStale_eq_false now s.last).2 (by omega)
    have resumed := countdown_of_counted (now := now) effective more
    rw [e]
    simp [tickState, tickTransferring, fresh, fresh', active, resumed, raiseInterrupt]

/-- Nor in a TICK at the same count, which is stale. -/
theorem tickState_tickState_same {now : Word64} {s : State} (noIrq : (tickState now s).result ≠ .irq true) :
    tickState now (tickState now s) = tickState now s := by
  have notLater : now.toNat ≤ (tickState now s).last.toNat := by
    rw [tickState_last_toNat]
    exact Nat.le_max_right _ _
  obtain ⟨irq, hirq⟩ := tickState_result_eq_irq now s
  have low : irq = false := by simpa [hirq] using noIrq
  rw [tickState_stale now _ notLater, ← low, ← hirq]

theorem tickState_tickState {n now : Word64} {s : State} (ordered : n.toNat ≤ now.toNat)
    (noIrq : (tickState n s).result ≠ .irq true) : tickState now (tickState n s) = tickState now s := by
  obtain later | same := Nat.lt_or_eq_of_le ordered
  · exact tickState_tickState_of_lt later noIrq
  · obtain rfl := BitVec.eq_of_toNat_eq same
    exact tickState_tickState_same noIrq

/-- Settles O14, by induction on the TICKs: the first, which completed nothing, can be left out before the rest. -/
theorem spacingOfTicksDoesNotMatter : Obligations.SpacingOfTicksDoesNotMatter := by
  intro s nows now valid ordered quiet
  rw [exec_tick_of_valid now s valid]
  induction nows generalizing s with
  | nil => exact runOps_cons_of_next _ _ s _ (exec_tick_of_valid now s valid)
  | cons n nows ih =>
    obtain ⟨first, others⟩ := List.forall_mem_cons.1 ordered
    rw [irqCount_ticks_cons n nows valid, Nat.add_eq_zero_iff] at quiet
    obtain ⟨quietAfter, quietNow⟩ := quiet
    have noIrq : (tickState n s).result ≠ .irq true := by simpa using quietNow
    have run := ih (tickState n s) ((tickState_valid n s).trans valid) others quietAfter
    rw [tickState_tickState first noIrq] at run
    exact (runOps_cons_of_next _ _ s _ (exec_tick_of_valid n s valid)).trans run

/-- Settles O16, by induction on the TICKs: each leaves LAST at the larger of LAST and its count. -/
theorem lastIsTheLargestCountSeen : Obligations.LastIsTheLargestCountSeen := by
  intro s nows valid
  induction nows generalizing s with
  | nil => exact ⟨s, rfl, rfl⟩
  | cons now nows ih =>
    obtain ⟨t, run, largest⟩ := ih (tickState now s) ((tickState_valid now s).trans valid)
    rw [tickState_last_toNat] at largest
    exact ⟨t, (runOps_cons_of_next _ _ s _ (exec_tick_of_valid now s valid)).trans run, largest⟩

end Sys2Proof.Machine
end

section
/-! PROOFS. The register port, and who writes which field (10_state.md section 2; 41_register_access.md). -/

namespace Sys2Proof.Machine

/-- The record at the head of a stream of at least 18 bytes: TR at 0, CTL at 1, LAST at 2, REM at 10 (30_encoding.md R49). -/
def headRecord (stream : List Byte) : Snapshot where
  tr := stream.getD 0 0#8
  ctl := stream.getD 1 0#8
  last := fromBytes8 Config.snapEndian ((stream.drop 2).take 8)
  rem := fromBytes8 Config.snapEndian ((stream.drop 10).take 8)

theorem parseSnapshot_headRecord {stream : List Byte} (full : 18 ≤ stream.length) :
    parseSnapshot Config.snapEndian stream = some (headRecord stream, stream.drop 18) := by
  obtain ⟨a, b, l, r, rest, rfl, hl, hr⟩ := stream_split stream full
  have last : ([a, b] ++ l ++ r ++ rest).drop 2 = l ++ (r ++ rest) := by simp
  have rem : ([a, b] ++ l ++ r ++ rest).drop 10 = r ++ rest := by simp [hl]
  have unread : ([a, b] ++ l ++ r ++ rest).drop 18 = rest := by simp [List.drop_append, hl, hr]
  rw [parseSnapshot_full _ a b l r rest hl hr, headRecord, last, rem, unread, List.take_left' hl, List.take_left' hr]
  rfl

/-- What a full LOAD leaves (42_snapshot.md R88). -/
theorem exec_load_headRecord (ver : Nat) {stream : List Byte} (s : State) (full : 18 ≤ stream.length) :
    exec (.load ver stream) s = .next ((s.restore (headRecord stream)).ok (.rest (stream.drop 18))) :=
  exec_load_of_some ver stream _ _ s (parseSnapshot_headRecord full)

/-! Reads and writes. -/

/-- Settles O18: past the validity check a read hands out the byte stored. -/
theorem readsReturnTheStoredByte : Obligations.ReadsReturnTheStoredByte :=
  fun s valid => ⟨exec_rdTr_of_valid s valid, exec_rdCtl_of_valid s valid⟩

theorem exec_wrTr_of_valid (data : Byte) (s : State) (h : s.valid = true) :
    exec (.wrTr data) s = .next { s with result := .done } := by
  rw [exec_wrTr_eq, requireValid_of_valid s _ h, State.ok]

/-- Settles O19: WR.TR hands out an empty result and writes no field, so RD.TR reads what stood there. -/
theorem writeOfTrIsDiscarded : Obligations.WriteOfTrIsDiscarded := by
  intro s data valid
  have written := exec_wrTr_of_valid data s valid
  have read := exec_rdTr_of_valid { s with result := .done } valid
  refine ⟨written, ?_⟩
  rw [resultsOf_cons_of_next _ _ _ _ written, resultsOf_cons_of_next _ _ _ _ read, resultsOf]

/-- An operation of the guest's port writes CTL at most, and what it hands out depends on TR and CTL at most
(41_register_access.md R75 to R78). -/
theorem exec_guest {i : Instr} (guest : i.port.role = .guest) :
    i.startsHistory = false ∧ ∃ handedOut : Byte → Byte → OpResult, ∀ s : State, s.valid = true →
      exec i s = .next { s with ctl := i.ctlWritten s.ctl, result := handedOut s.tr s.ctl } := by
  cases i with
  | rdTr => exact ⟨rfl, fun tr _ => .byte tr, exec_rdTr_of_valid⟩
  | rdCtl => exact ⟨rfl, fun _ ctl => .byte ctl, exec_rdCtl_of_valid⟩
  | wrTr data => exact ⟨rfl, fun _ _ => .done, exec_wrTr_of_valid data⟩
  | wrCtl data => exact ⟨rfl, fun _ _ => .done, exec_wrCtl_of_valid data⟩
  | _ => cases guest

theorem resultsOf_cons_of_refused (i : Instr) (is : List Instr) {s : State} {r : Refusal} (h : exec i s = .refused r) :
    resultsOf (i :: is) s = [] := by
  simp only [resultsOf, h]

/-- Two units that differ in REM, LAST and the last result alone hand out the same to the guest. -/
theorem resultsOf_guest {ops : List Instr} (guest : ∀ i ∈ ops, i.port.role = .guest) (rem last : Word64) :
    ∀ s : State, resultsOf ops { s with rem := rem, last := last } = resultsOf ops s := by
  induction ops with
  | nil => intro s; rfl
  | cons i is ih =>
    intro s
    obtain ⟨hi, his⟩ := List.forall_mem_cons.1 guest
    obtain ⟨continuing, handedOut, performed⟩ := exec_guest hi
    obtain valid | invalid := Bool.eq_false_or_eq_true s.valid
    · rw [resultsOf_cons_of_next _ _ _ _ (performed s valid),
        resultsOf_cons_of_next _ _ _ _ (performed { s with rem := rem, last := last } valid)]
      exact congrArg _ (ih his { s with ctl := i.ctlWritten s.ctl, result := handedOut s.tr s.ctl })
    · rw [resultsOf_cons_of_refused i is (exec_of_invalid invalid continuing),
        resultsOf_cons_of_refused i is (exec_of_invalid (s := { s with rem := rem, last := last }) invalid continuing)]

theorem exec_guest_keeps {i : Instr} {s t : State} (guest : i.port.role = .guest) (h : exec i s = .next t) :
    t.rem = s.rem ∧ t.last = s.last := by
  obtain ⟨continuing, _, performed⟩ := exec_guest guest
  obtain ⟨valid, _⟩ := exec_next_of_continuing continuing h
  cases h.symm.trans (performed s valid)
  exact ⟨rfl, rfl⟩

/-- Settles O27: each guest operation reads and writes CTL and TR at most, and so does a run of them. -/
theorem guestCannotReachTheCountdown : Obligations.GuestCannotReachTheCountdown := by
  intro ops s guest
  refine ⟨fun rem last => resultsOf_guest guest rem last s, fun t run => ?_⟩
  refine runOps_keeps (P := fun u => u.rem = s.rem ∧ u.last = s.last) (fun i u v hi hu h => ?_) ops s t guest ⟨rfl, rfl⟩ run
  obtain ⟨sameRem, sameLast⟩ := exec_guest_keeps hi h
  exact ⟨sameRem.trans hu.1, sameLast.trans hu.2⟩

end Sys2Proof.Machine
end

section
/-! PROOFS. Who writes which field, over all operations (10_state.md section 2). -/

namespace Sys2Proof.Machine

/-- An operation that is no RESET, LOAD or TICK writes no field but CTL, and that only as a WR.CTL does. -/
theorem exec_next_of_not_tick {i : Instr} {s t : State} (continuing : i.startsHistory = false) (notTick : i.opcode ≠ .tick)
    (h : exec i s = .next t) : s.valid = true ∧ ∃ r, t = { s with ctl := i.ctlWritten s.ctl, result := r } := by
  obtain ⟨valid, ⟨now, rfl, _⟩ | written⟩ := exec_next_of_continuing continuing h
  · exact absurd rfl notTick
  · exact ⟨valid, written⟩

/-- The operations of the REG port, and SAVE. -/
theorem continuing_of_mem {i : Instr} (h : i.opcode ∈ [.rdTr, .rdCtl, .wrTr, .wrCtl, .save]) :
    i.startsHistory = false ∧ i.opcode ≠ .tick := by
  rw [startsHistory_eq_false]
  refine ⟨⟨?_, ?_⟩, ?_⟩ <;> intro other <;> simp [other] at h

/-- Of those, the ones that do not write CTL. -/
theorem ctlWritten_of_mem {i : Instr} (h : i.opcode ∈ [.rdTr, .rdCtl, .wrTr, .save]) (ctl : Byte) :
    i.opcode ∈ [.rdTr, .rdCtl, .wrTr, .wrCtl, .save] ∧ i.ctlWritten ctl = ctl := by
  constructor
  · simp only [List.mem_cons] at h ⊢
    tauto
  · cases i with
    | wrCtl data => simp [Instr.opcode] at h
    | _ => rfl

theorem exec_next_of_mem {i : Instr} {s t : State} (hi : i.opcode ∈ [.rdTr, .rdCtl, .wrTr, .wrCtl, .save])
    (h : exec i s = .next t) : ∃ r, t = { s with ctl := i.ctlWritten s.ctl, result := r } := by
  obtain ⟨continuing, notTick⟩ := continuing_of_mem hi
  exact (exec_next_of_not_tick continuing notTick h).2

theorem tickState_last (now : Word64) (s : State) :
    (tickState now s).last = if s.last.toNat < now.toNat then now else s.last := by
  obtain stale | effective := le_or_gt now.toNat s.last.toNat
  · rw [tickState_stale now s stale, if_neg (Nat.not_lt.2 stale)]
  · apply BitVec.eq_of_toNat_eq
    rw [tickState_last_toNat, if_pos effective, max_eq_right effective.le]

/-- A TICK clears ACT where it raises the interrupt, and else keeps it (10_state.md R13). -/
theorem tickState_act (now : Word64) (s : State) :
    act (tickState now s).ctl = (act s.ctl && decide ((tickState now s).result = .irq false)) := by
  obtain ⟨_, e⟩ | ⟨_, _, e⟩ | ⟨_, _, _, e⟩ | ⟨_, _, _, e⟩ := tickState_cases now s <;> simp [e]

/-- Settles O23: an effective TICK stores its count, RESET 0, a LOAD its record's LAST; the others write no field but CTL. -/
theorem lastIsWrittenOnlyByEffectiveTickResetAndLoad : Obligations.LastIsWrittenOnlyByEffectiveTickResetAndLoad := by
  intro i s t h
  refine ⟨?_, ?_, ?_, fun hi => ?_⟩
  · rintro now rfl
    obtain ⟨_, rfl⟩ := exec_tick_eq_next h
    exact tickState_last now s
  · rintro rfl
    cases h
    rfl
  · rintro ver stream rfl full
    cases h.symm.trans (exec_load_headRecord ver s full)
    rfl
  · obtain ⟨r, rfl⟩ := exec_next_of_mem hi h
    rfl

/-- Settles O24: a TICK clears ACT only with the interrupt, WR.CTL and LOAD write data's bit, RESET clears it; the others write no
field. -/
theorem actChangesOnlyByCompletionAndByData : Obligations.ActChangesOnlyByCompletionAndByData := by
  intro i s t h
  refine ⟨?_, ?_, ?_, ?_, fun hi => ?_⟩
  · rintro now rfl
    obtain ⟨_, rfl⟩ := exec_tick_eq_next h
    exact tickState_act now s
  · rintro data rfl
    obtain ⟨r, rfl⟩ := exec_next_of_mem (by simp [Instr.opcode]) h
    rfl
  · rintro rfl
    cases h
    rw [State.ok_ctl, powerOn_ctl]
    decide
  · rintro ver stream rfl full
    cases h.symm.trans (exec_load_headRecord ver s full)
    rfl
  · obtain ⟨hi, same⟩ := ctlWritten_of_mem hi s.ctl
    obtain ⟨r, rfl⟩ := exec_next_of_mem hi h
    exact same

/-- Settles O25: RESET writes 0xFF, a LOAD its record's byte 0; every other operation keeps TR. -/
theorem onlyResetAndLoadWriteTr : Obligations.OnlyResetAndLoadWriteTr := by
  intro i s t h
  refine ⟨fun notReset notLoad => ?_, ?_, ?_⟩
  · obtain ⟨_, ⟨now, _, rfl⟩ | ⟨_, rfl⟩⟩ := exec_next_of_continuing ((startsHistory_eq_false i).2 ⟨notReset, notLoad⟩) h
    · exact tickState_tr now s
    · rfl
  · rintro rfl
    cases h
    rfl
  · rintro ver stream rfl full
    cases h.symm.trans (exec_load_headRecord ver s full)
    rfl

/-! Bits 6:0 of CTL. -/

/-- A valid unit whose CTL has bits 6:0 of `data`. -/
structure LowBitsOf (data : Byte) (s : State) : Prop where
  valid : s.valid = true
  low : ∀ k, k < 7 → s.ctl.getLsbD k = data.getLsbD k

theorem exec_keeps_lowBitsOf {data : Byte} (i : Instr) (s t : State) (hi : i.opcode ∈ [.tick, .rdTr, .rdCtl, .wrTr, .save])
    (hs : LowBitsOf data s) (h : exec i s = .next t) : LowBitsOf data t := by
  obtain tick | other := List.mem_cons.1 hi
  · cases i with
    | tick now =>
      obtain ⟨valid, rfl⟩ := exec_tick_eq_next h
      exact ⟨(tickState_valid now s).trans valid, fun k hk => (tickState_ctl_getLsbD now s hk).trans (hs.low k hk)⟩
    | _ => cases tick
  · obtain ⟨hi, same⟩ := ctlWritten_of_mem other s.ctl
    obtain ⟨r, rfl⟩ := exec_next_of_mem hi h
    exact ⟨hs.valid, by rw [same]; exact hs.low⟩

/-- A run of operations each of which a valid unit accepts and leaves valid. -/
theorem runOps_of_keeps {P : State → Prop} {allowed : Instr → Prop} (valid : ∀ s, P s → s.valid = true)
    (step : ∀ i s t, allowed i → P s → exec i s = .next t → P t) :
    ∀ (ops : List Instr) (s : State), (∀ i ∈ ops, allowed i) → P s → ∃ t, runOps ops s = .next t ∧ P t := by
  intro ops
  induction ops with
  | nil => exact fun s _ hs => ⟨s, rfl, hs⟩
  | cons i is ih =>
    intro s hops hs
    obtain ⟨hi, his⟩ := List.forall_mem_cons.1 hops
    obtain ⟨u, answer⟩ := exec_of_valid i (valid s hs)
    rw [runOps_cons_of_next i is s u answer]
    exact ih u his (step i s u hi hs answer)

theorem rsv_clk_of_low {b data : Byte} (low : ∀ k, k < 7 → b.getLsbD k = data.getLsbD k) : rsv b = rsv data ∧ clk b = clk data := by
  refine ⟨?_, low 0 (by omega)⟩
  apply BitVec.eq_of_getLsbD_eq
  intro k hk
  simp only [rsv, BitVec.getLsbD_extractLsb', low (1 + k) (by omega)]

/-- Settles O28: WR.CTL stores the seven bits, no operation of the list writes them, and RD.CTL reads all of CTL. -/
theorem reservedBitsPassThroughUnmodified : Obligations.ReservedBitsPassThroughUnmodified := by
  intro ops s data valid allowed
  obtain ⟨t, run, ht⟩ := runOps_of_keeps (fun _ h => h.valid) exec_keeps_lowBitsOf ops { s with ctl := data, result := .done }
    allowed ⟨valid, fun _ _ => rfl⟩
  rw [← runOps_cons_of_next _ ops s _ (exec_wrCtl_of_valid data s valid)] at run
  exact ⟨t, _, t.ctl, run, exec_rdCtl_of_valid t ht.valid, rfl, rsv_clk_of_low ht.low⟩

end Sys2Proof.Machine
end

section
/-! PROOFS. SAVE and LOAD, and the numbers of the outcomes (30_encoding.md section 4; 42_snapshot.md; 60_exceptions.md section 1). -/

namespace Sys2Proof.Machine

/-! The record. -/

/-- The record of a unit: TR, CTL, and LAST and REM least significant byte first (30_encoding.md R49). -/
theorem snapshotBytes_snapshot (s : State) :
    snapshotBytes Config.snapEndian s.snapshot = [s.tr, s.ctl] ++ leBytes 8 s.last.toNat ++ leBytes 8 s.rem.toNat := by
  simp [snapshotBytes, toBytes8, Config.snapEndian]

/-- Byte k of a word's bytes is bits 8k+7:8k of the word. -/
theorem leBytes_word_getElem? (v : Word64) {k : Nat} (hk : k < 8) : (leBytes 8 v.toNat)[k]? = some (v.extractLsb' (8 * k) 8) := by
  rw [leBytes_getElem? 8 v.toNat k hk]
  refine congrArg some (BitVec.eq_of_toNat_eq ?_)
  simp [Nat.shiftRight_eq_div_pow, Nat.pow_mul]

/-- A snapshot can be read back from its record, so no two have the same one. -/
theorem snapshotBytes_injective (e : Endian) {x y : Snapshot} (h : snapshotBytes e x = snapshotBytes e y) : x = y := by
  have readX := parseSnapshot_snapshotBytes e x []
  rw [h, parseSnapshot_snapshotBytes e y []] at readX
  exact (Prod.mk.inj (Option.some.inj readX)).1.symm

/-- Writing the contents of 18 bytes gives the bytes again. -/
theorem snapshotBytes_headRecord {bytes : List Byte} (eighteen : bytes.length = 18) :
    snapshotBytes Config.snapEndian (headRecord bytes) = bytes := by
  obtain ⟨l, r, layout, hl, hr, last, rem⟩ := parseSnapshot_eq_some _ _ _ _ (parseSnapshot_headRecord eighteen.ge)
  rw [List.drop_of_length_le eighteen.le, List.append_nil] at layout
  rw [snapshotBytes, last, rem, tc64_sint, toBytes8_fromBytes8 _ _ hl, toBytes8_fromBytes8 _ _ hr]
  exact layout.symm

/-- What a SAVE that completes hands out. -/
theorem exec_save_eq_next {s t : State} (h : exec .save s = .next t) :
    t.result = .record (snapshotBytes Config.snapEndian s.snapshot) := by
  rw [exec_save_eq] at h
  obtain ⟨_, saved⟩ := requireValid_eq_next _ _ _ h
  cases saved
  rfl

/-- Settles O30: the record is TR, CTL and the bytes of two words, each byte eight bits of its word. -/
theorem recordHasEachFieldAtItsOffset : Obligations.RecordHasEachFieldAtItsOffset := by
  intro s valid
  refine ⟨_, exec_save_of_valid s valid, snapshotBytes_length _ _, ?_⟩
  rw [snapshotBytes_snapshot]
  refine ⟨rfl, rfl, fun k hk => ⟨?_, ?_⟩⟩
  · rw [← leBytes_word_getElem? s.last hk, List.getElem?_append_left (by simp; omega), List.getElem?_append_right (by simp)]
    simp
  · rw [← leBytes_word_getElem? s.rem hk, List.getElem?_append_right (by simp)]
    simp

/-- Settles O34: both SAVEs hand out the record of their unit, and a record determines its four fields. -/
theorem recordDeterminesTheFourFields : Obligations.RecordDeterminesTheFourFields := by
  intro s s' t t' bytes saved saved' isRecord isRecord'
  have record := OpResult.record.inj ((exec_save_eq_next saved).symm.trans isRecord)
  have record' := OpResult.record.inj ((exec_save_eq_next saved').symm.trans isRecord')
  obtain ⟨tr, ctl, last, rem⟩ := Snapshot.mk.inj (snapshotBytes_injective _ (record.trans record'.symm))
  exact ⟨tr, ctl, rem, last⟩

/-- Settles O33: the record read back is the snapshot written, and 18 bytes read are written back as they were. -/
theorem saveAndLoadAreInverse : Obligations.SaveAndLoadAreInverse := by
  constructor
  · intro s u ver more valid
    exact ⟨_, _, exec_save_of_valid s valid, rfl, exec_load_of_some ver _ more _ u (parseSnapshot_snapshotBytes _ s.snapshot more)⟩
  · intro u ver bytes eighteen
    refine ⟨_, _, exec_load_headRecord ver u eighteen.ge, ?_, exec_save_of_valid _ rfl, ?_⟩
    · rw [State.ok_result, List.drop_of_length_le eighteen.le]
    · rw [State.ok_result]
      exact congrArg OpResult.record (snapshotBytes_headRecord eighteen)

/-! The fault. -/

/-- Settles O32: taking the fault leaves the unit invalid, which every operation but RESET and LOAD is refused for. -/
theorem shortLoadInvalidatesTheUnitUntilResetOrLoad : Obligations.ShortLoadInvalidatesTheUnitUntilResetOrLoad := by
  intro s ver stream short
  refine ⟨_, exec_load_short s ver stream short, rfl, rfl, rfl, fun i notReset notLoad => ?_, ⟨_, exec_reset_eq _, rfl⟩,
    fun ver' stream' => ?_⟩
  · exact exec_of_invalid rfl ((startsHistory_eq_false i).2 ⟨notReset, notLoad⟩)
  · obtain short' | full := lt_or_ge stream'.length 18
    · exact ⟨_, exec_load_short _ ver' stream' short', by simp [Nat.not_le.2 short']⟩
    · exact ⟨_, exec_load_headRecord ver' _ full, by simp [full]⟩

end Sys2Proof.Machine
end

section
/-! PROOFS. The state machine, activation and completion (10_state.md R19; 30_encoding.md R53; 40_tick.md section 3). -/

namespace Sys2Proof.Machine

/-! The phase. -/

@[simp] theorem phase_eq_idle (s : State) : s.phase = .idle ↔ act s.ctl = false := by
  cases h : act s.ctl <;> simp [State.phase, phaseOf, h]

@[simp] theorem phase_eq_transferring (s : State) : s.phase = .transferring ↔ act s.ctl = true := by
  cases h : act s.ctl <;> simp [State.phase, phaseOf, h]

/-! Power-on and RESET. -/

/-- Settles O1: the values of State.reset. -/
theorem powerOnStateIsIdleWithNothingCounted : Obligations.PowerOnStateIsIdleWithNothingCounted := by
  unfold Obligations.PowerOnStateIsIdleWithNothingCounted
  decide

/-- Settles O2: RESET writes every field of the unit and the result, and leaves the trace and the draws. -/
theorem resetRestoresThePowerOnStateFromEveryState : Obligations.ResetRestoresThePowerOnStateFromEveryState :=
  exec_reset_eq

/-! The rows of the transition table. -/

theorem act_tickState_of_active {now : Word64} {s : State} (active : act s.ctl = true) {irq : Bool}
    (h : (tickState now s).result = .irq irq) : act (tickState now s).ctl = !irq := by
  cases irq <;> simp [tickState_act, active, h]

/-- The rows of TICK (40_tick.md section 3). -/
theorem tickState_rows (now : Word64) (s : State) :
    (s.phase = .idle →
      (tickState now s).phase = .idle ∧ (tickState now s).result = .irq false ∧ (tickState now s).rem = s.rem) ∧
    (s.phase = .transferring → now.toNat ≤ s.last.toNat →
      (tickState now s).phase = .transferring ∧ (tickState now s).result = .irq false ∧ (tickState now s).rem = s.rem) ∧
    (s.phase = .transferring → s.last.toNat < now.toNat → (now.toNat : Int) - (s.last.toNat : Int) < s.rem.toInt →
      (tickState now s).phase = .transferring ∧ (tickState now s).result = .irq false ∧
        (tickState now s).rem.toInt = s.rem.toInt - ((now.toNat : Int) - (s.last.toNat : Int))) ∧
    (s.phase = .transferring → s.last.toNat < now.toNat → s.rem.toInt ≤ (now.toNat : Int) - (s.last.toNat : Int) →
      (tickState now s).phase = .idle ∧ (tickState now s).result = .irq true ∧ (tickState now s).rem.toInt = 976) := by
  simp only [phase_eq_idle, phase_eq_transferring]
  refine ⟨fun idle => ?_, fun active stale => ?_, fun active effective more => ?_, fun active effective done => ?_⟩
  · obtain ⟨sameCtl, sameRem⟩ := tickState_ctl_rem_of_idle now s idle
    exact ⟨sameCtl ▸ idle, tickState_result_of_idle now s idle, sameRem⟩
  · rw [tickState_stale now s stale]
    exact ⟨active, rfl, rfl⟩
  · obtain ⟨noIrq, counted⟩ := (tickState_transferring now s active effective).2 more
    exact ⟨act_tickState_of_active active noIrq, noIrq, counted⟩
  · have irq := (tickState_transferring now s active effective).1 done
    refine ⟨act_tickState_of_active active irq, irq, ?_⟩
    rw [tickState_of_irq_true irq, raiseInterrupt_rem_toInt]

theorem not_irq_of_not_tick {i : Instr} {s t : State} (notTick : i.opcode ≠ .tick) (h : exec i s = .next t) (b : Bool) :
    t.result ≠ .irq b := by
  intro irq
  obtain ⟨now, rfl, _⟩ := exec_next_of_irq h irq
  exact notTick rfl

/-- Settles O10, row by row. -/
theorem stateMachineFollowsItsTransitionTable : Obligations.StateMachineFollowsItsTransitionTable := by
  refine ⟨fun s now valid => ⟨_, exec_tick_of_valid now s valid, tickState_rows now s⟩, fun s data valid => ?_,
    fun s i valid hi => ?_, fun s ver stream full => ?_, fun s => ?_⟩
  · exact ⟨_, exec_wrCtl_of_valid data s valid, rfl, rfl, fun active => (phase_eq_transferring _).2 active,
      fun idle => (phase_eq_idle _).2 idle⟩
  · obtain ⟨t, answer⟩ := exec_of_valid i valid
    obtain ⟨hi, sameCtl⟩ := ctlWritten_of_mem hi s.ctl
    have noIrq := not_irq_of_not_tick (continuing_of_mem hi).2 answer
    obtain ⟨r, rfl⟩ := exec_next_of_mem hi answer
    exact ⟨_, answer, congrArg phaseOf sameCtl, rfl, noIrq⟩
  · exact ⟨_, exec_load_headRecord ver s full, nofun, rfl, rfl⟩
  · exact ⟨_, exec_reset_eq s, by simp [act, Config.ctlReset], by simp, nofun⟩

/-- Settles O21: the next TICK finds the ACT written and the REM kept; RD.CTL finds the CTL that completion left; SAVE records the fields
of the state it finds. -/
theorem eachOperationSeesTheOneBefore : Obligations.EachOperationSeesTheOneBefore := by
  refine ⟨fun s data now valid active effective => ?_, fun s t now ticked irq => ?_, fun i s t _ valid => ?_⟩
  · exact ⟨_, _, exec_wrCtl_of_valid data s valid, exec_tick_of_valid now _ valid,
      tickState_transferring now { s with ctl := data, result := .done } active effective⟩
  · obtain ⟨valid, rfl⟩ := exec_tick_eq_next ticked
    have idle : act (tickState now s).ctl = false := by simp [tickState_act, irq]
    exact ⟨_, _, exec_rdCtl_of_valid _ ((tickState_valid now s).trans valid), rfl, idle⟩
  · exact ⟨_, exec_save_of_valid t valid, congrArg OpResult.record (snapshotBytes_snapshot t)⟩

/-! Activation and completion. -/

theorem activates_iff (i : Instr) : i.activates = true ↔
    (∃ data, i = .wrCtl data ∧ act data = true) ∨
      ∃ ver stream, i = .load ver stream ∧ 18 ≤ stream.length ∧ act (headRecord stream).ctl = true := by
  cases i with
  | wrCtl data => simp
  | load ver stream =>
    obtain short | full := lt_or_ge stream.length 18
    · simp [activates_load_of_none ver stream ((parseSnapshot_eq_none _ _).2 short), short]
    · simp [activates_load_of_some ver stream _ _ (parseSnapshot_headRecord full), full]
  | _ => simp [Instr.activates]

/-- An activation leaves the unit valid and Transferring (30_encoding.md R53). -/
theorem exec_of_activates {i : Instr} {s t : State} (activates : i.activates = true) (h : exec i s = .next t) :
    t.valid = true ∧ act t.ctl = true := by
  obtain ⟨data, rfl, active⟩ | ⟨ver, stream, rfl, full, active⟩ := (activates_iff i).1 activates
  · obtain ⟨valid, r, rfl⟩ := exec_next_of_not_tick rfl (by simp [Instr.opcode]) h
    exact ⟨valid, active⟩
  · cases h.symm.trans (exec_load_headRecord ver s full)
    exact ⟨rfl, active⟩

theorem completionsDue_pos (s : State) : 0 < completionsDue s ↔ s.valid = true ∧ act s.ctl = true := by
  cases hv : s.valid <;> cases ha : act s.ctl <;> simp [completionsDue, hv, ha]

/-- A unit found valid and Transferring after an operation that is no activation was so before: only an activation makes a completion due
(10_state.md R13). -/
theorem active_of_not_activates {i : Instr} {s t : State} (quiet : i.activates = false) (h : exec i s = .next t)
    (after : t.valid = true ∧ act t.ctl = true) : s.valid = true ∧ act s.ctl = true := by
  have dueAfter := (completionsDue_pos t).2 after
  have due : completionsDue t ≤ completionsDue s := by simpa [quiet] using le_of_add_le_left (completionsDue_exec_le h)
  exact (completionsDue_pos s).1 (dueAfter.trans_le due)

/-- A completion is the TICK on a valid unit that raises the interrupt (30_encoding.md R53). -/
theorem completes_iff (now : Word64) (s : State) :
    completes now s = true ↔ s.valid = true ∧ (tickState now s).result = .irq true := by
  have reached : countdown s.rem now s.last ≤ 0 ↔ s.rem.toInt ≤ (now.toNat : Int) - (s.last.toNat : Int) := by
    rw [countdown_eq]
    omega
  simp [tickState_result_eq_irq_true, completes, isStale, reached, and_assoc]

/-- Settles O55: data with bit 7 set is written as it is; without it no completion becomes due; REM is written by RESET, TICK and LOAD
alone; and the guards of a completion are those of the TICK that hands out irq = 1. -/
theorem activationAndCompletionAreWhatTheSpecNames : Obligations.ActivationAndCompletionAreWhatTheSpecNames := by
  refine ⟨activates_iff, fun i s t h => ⟨fun activates => ?_, fun quiet valid active => ?_, fun notWriter => ?_⟩, fun now s => ?_⟩
  · obtain ⟨valid, active⟩ := exec_of_activates activates h
    exact ⟨valid, (phase_eq_transferring t).2 active⟩
  · obtain ⟨valid', active'⟩ := active_of_not_activates quiet h ⟨valid, (phase_eq_transferring t).1 active⟩
    exact ⟨valid', (phase_eq_transferring s).2 active'⟩
  · simp only [List.mem_cons, List.not_mem_nil, or_false, not_or] at notWriter
    obtain ⟨notReset, notTick, notLoad⟩ := notWriter
    obtain ⟨_, r, rfl⟩ := exec_next_of_not_tick ((startsHistory_eq_false i).2 ⟨notReset, notLoad⟩) notTick h
    rfl
  · rw [completes_iff]
    constructor
    · rintro ⟨valid, irq⟩
      exact ⟨_, exec_tick_of_valid now s valid, irq⟩
    · rintro ⟨t, ticked, irq⟩
      obtain ⟨valid, rfl⟩ := exec_tick_eq_next ticked
      exact ⟨valid, irq⟩

end Sys2Proof.Machine
end

section
/-! PROOFS. The numbers of the outcomes (60_exceptions.md section 1) and the hazards (70_reset_and_hazards.md section 3). -/

namespace Sys2Proof.Machine

/-! The numbers of the outcomes. -/

theorem outcomeCode_of_not_fault {s : State} (h : ∀ f, s.result ≠ .fault f) : outcomeCode (.next s) = some 0 := by
  cases hr : s.result with
  | fault f => exact absurd hr (h f)
  | _ => simp only [outcomeCode, hr]

theorem not_fault_of_not_load {i : Instr} {s t : State} (notLoad : i.opcode ≠ .load) (h : exec i s = .next t) (f : Fault) :
    t.result ≠ .fault f := by
  intro fault
  obtain ⟨_, _, rfl, _⟩ := exec_next_of_fault h fault
  exact notLoad rfl

theorem outcomeCode_load (ver : Nat) (stream : List Byte) (s : State) :
    outcomeCode (exec (.load ver stream) s) = some (if 18 ≤ stream.length then 0 else 1) := by
  obtain short | full := lt_or_ge stream.length 18
  · rw [exec_load_short s ver stream short, if_neg (Nat.not_le.2 short)]
    rfl
  · rw [exec_load_headRecord ver s full, if_pos full]
    rfl

/-- Settles O37: the codec's refusals, exec's one refusal and the fault have their own numbers; no operation but a LOAD faults. -/
theorem outcomesHaveTheirNumbers : Obligations.OutcomesHaveTheirNumbers := by
  intro s
  refine ⟨fun opc h => by rw [step_of_reserved h]; rfl, fun op h => by rw [step_of_truncated h]; rfl,
    fun i rest h notLoad => ⟨fun accepted => ?_, fun invalid notReset => ?_⟩, fun ver stream rest h => ?_⟩
  · obtain ⟨t, answer⟩ : ∃ t, exec i { s with trace := rest } = .next t :=
      (everyAcceptedOperationCompletes i { s with trace := rest }).1.2 (accepted.imp_right .inl)
    rw [step_of_record h, answer]
    exact outcomeCode_of_not_fault (not_fault_of_not_load notLoad answer)
  · rw [step_of_record h, exec_of_invalid (s := { s with trace := rest }) invalid
      ((startsHistory_eq_false i).2 ⟨notReset, notLoad⟩)]
    rfl
  · rw [step_of_record h]
    exact outcomeCode_load ver stream _

/-! Without an effective TICK nothing completes. -/

theorem irqCount_of_no_tick {ops : List Instr} (noTick : ∀ i ∈ ops, i.opcode ≠ .tick) : ∀ s : State, irqCount ops s = 0 := by
  induction ops with
  | nil => intro s; rfl
  | cons i is ih =>
    intro s
    obtain ⟨hi, his⟩ := List.forall_mem_cons.1 noTick
    obtain ⟨t, answer⟩ | ⟨_, _, refused⟩ := exec_cases i s
    · rw [irqCount_cons_of_next i is s t answer, ih his t, if_neg (not_irq_of_not_tick hi answer true)]
    · simp [irqCount, resultsOf_cons_of_refused i is refused]

/-- A stale TICK, and any operation that is no TICK, RESET or LOAD, writes no field but CTL, and raises no interrupt
(40_tick.md R61; 41_register_access.md R78). -/
theorem exec_of_ineffective {i : Instr} {s : State} (valid : s.valid = true) (continuing : i.startsHistory = false)
    (stale : ∀ now, i = .tick now → now.toNat ≤ s.last.toNat) :
    ∃ r, exec i s = .next { s with ctl := i.ctlWritten s.ctl, result := r } ∧ r ≠ .irq true := by
  obtain ⟨t, answer⟩ := exec_of_valid i valid
  have noIrq : t.result ≠ .irq true := by
    intro irq
    obtain ⟨now, rfl, _, rfl⟩ := exec_next_of_irq answer irq
    rw [tickState_stale now s (stale now rfl)] at irq
    cases irq
  obtain ⟨_, ⟨now, rfl, rfl⟩ | ⟨r, rfl⟩⟩ := exec_next_of_continuing continuing answer
  · rw [tickState_stale now s (stale now rfl)] at answer noIrq
    exact ⟨_, answer, noIrq⟩
  · exact ⟨r, answer, noIrq⟩

theorem run_of_ineffective {ops : List Instr} {last : Word64} (continuing : ∀ i ∈ ops, i.startsHistory = false)
    (stale : ∀ i ∈ ops, ∀ now, i = .tick now → now.toNat ≤ last.toNat) : ∀ s : State, s.valid = true → s.last = last →
    irqCount ops s = 0 ∧
      ∃ r, runOps ops s = .next { s with ctl := ops.foldl (fun ctl i => i.ctlWritten ctl) s.ctl, result := r } := by
  induction ops with
  | nil => exact fun s _ _ => ⟨rfl, s.result, rfl⟩
  | cons i is ih =>
    intro s valid sameLast
    obtain ⟨hi, his⟩ := List.forall_mem_cons.1 continuing
    obtain ⟨stale, stales⟩ := List.forall_mem_cons.1 stale
    obtain ⟨r, answer, noIrq⟩ := exec_of_ineffective valid hi (sameLast ▸ stale)
    rw [irqCount_cons_of_next i is s _ answer, if_neg noIrq, runOps_cons_of_next i is s _ answer]
    exact ih his stales { s with ctl := i.ctlWritten s.ctl, result := r } valid sameLast

/-- Settles O46: only a TICK raises the interrupt; and of the operations named none writes LAST, so the stale TICKs stay stale. -/
theorem withoutAnEffectiveTickNothingCompletes : Obligations.WithoutAnEffectiveTickNothingCompletes := by
  refine ⟨fun ops s noTick => irqCount_of_no_tick noTick s, fun ops s valid allowed => ?_⟩
  refine run_of_ineffective (last := s.last) (fun i hi => ?_) (fun i hi => (allowed i hi).2) s valid rfl
  rw [startsHistory_eq_false]
  obtain ⟨named, _⟩ := allowed i hi
  constructor <;> intro starts <;> simp [starts] at named

/-! Activations and the countdown they find. -/

theorem resultsOf_tick (now : Word64) {s : State} (valid : s.valid = true) : resultsOf [.tick now] s = [(tickState now s).result] :=
  resultsOf_ticks_cons now [] valid

/-- A WR.CTL that sets bit 7 and a TICK above LAST: the TICK compares REM as it stood with the cycles since LAST (40_tick.md R66;
the spec's decision D7). -/
theorem resultsOf_activate_tick {s : State} {data : Byte} {now : Word64} (valid : s.valid = true) (active : act data = true)
    (effective : s.last.toNat < now.toNat) :
    resultsOf [.wrCtl data, .tick now] s =
      [.done, .irq (decide (s.rem.toInt ≤ (now.toNat : Int) - (s.last.toNat : Int)))] := by
  rw [resultsOf_cons_of_next _ _ _ _ (exec_wrCtl_of_valid data s valid),
    resultsOf_tick now (s := { s with ctl := data, result := .done }) valid, tickState_result]
  simp [active, effective]

/-- Settles O44: RESET leaves REM = 0 and LAST = 0, TICK 0 is stale, and the first TICK above 0 finds REM used up. -/
theorem firstTransferAfterResetCompletesAtOnce : Obligations.FirstTransferAfterResetCompletesAtOnce := by
  intro s data now active effective
  have armed := exec_wrCtl_of_valid data ((powerOn s).ok .done) rfl
  have stale := staleTickChangesNoField { (powerOn s).ok .done with ctl := data, result := .done } 0#64 rfl (Nat.le_refl _)
  rw [resultsOf_cons_of_next _ _ _ _ (exec_reset_eq s), resultsOf_cons_of_next _ _ _ _ armed,
    resultsOf_cons_of_next _ _ _ _ stale, resultsOf_tick now rfl, tickState_result]
  have armedAct : act data = true := active
  simp [armedAct, effective]

/-- Settles O45: the first TICK takes its part off REM and moves LAST by as much, and no WR.CTL writes either. -/
theorem rewritingActNeverRestoresTheCountdown : Obligations.RewritingActNeverRestoresTheCountdown := by
  intro s n1 n2 d0 d1 valid active effective more later _ activating
  obtain ⟨noIrq, counted⟩ := (tickState_transferring n1 s active effective).2 more
  have last : (tickState n1 s).last = n1 := by rw [tickState_last, if_pos effective]
  have valid' : (tickState n1 s).valid = true := (tickState_valid n1 s).trans valid
  have whole : (tickState n1 s).rem.toInt ≤ (n2.toNat : Int) - (n1.toNat : Int) ↔
      s.rem.toInt ≤ (n2.toNat : Int) - (s.last.toNat : Int) := by
    omega
  rw [resultsOf_cons_of_next _ _ _ _ (exec_tick_of_valid n1 s valid), resultsOf_cons_of_next _ _ _ _ (exec_tick_of_valid n1 s valid),
    noIrq, resultsOf_cons_of_next _ _ _ _ (exec_wrCtl_of_valid d0 _ valid')]
  constructor
  · rw [resultsOf_activate_tick valid' activating (by rwa [last]), last, decide_eq_decide.2 whole]
  · rw [resultsOf_activate_tick (s := { tickState n1 s with ctl := d0, result := .done }) valid' activating (by rwa [last])]
    simp only [last, whole]

end Sys2Proof.Machine
end
